-- ==== Sys2Proof/Word.lean ====
section
/-! DEFINITION. The values of the machine: bytes, 16-bit words, 12-bit addresses, register indexes
(spec/00_scope.md R7, R9; spec/10_state.md R14). Every value is unsigned (R9). -/

namespace Sys2Proof

/-- An 8-bit value: a memory byte, a general register, the immediate `kk` (R7). -/
abbrev Byte := BitVec 8

/-- A 16-bit value: an opcode, the program counter, a return-stack entry (R7). -/
abbrev Word := BitVec 16

/-- The 12-bit address immediate `nnn` (R7, spec/30_encoding.md R42). -/
abbrev Addr12 := BitVec 12

/-- The index of a general register, V0 to VF (spec/10_state.md R14). -/
abbrev RegIdx := Fin 16

end Sys2Proof
end

