-- ==== Sys2Proof/Syntax.lean ====
section
/-! DEFINITION. The fifteen instructions (spec/00_scope.md R2; spec/30_encoding.md R47), one constructor per row of
spec/opcode_table.json, with their operand fields (R42) typed at the width the encoding gives them. -/

namespace Sys2Proof

/-- An instruction with its operands. The names are the spec's mnemonics (spec/30_encoding.md R51). -/
inductive Instr where
  /-- HALT, `0x0000` (spec/40_system_and_flow.md R52). -/
  | halt
  /-- CLEAR, `0x00E0` (R53). -/
  | clear
  /-- RETURN, `0x00EE` (R54). -/
  | ret
  /-- JUMP nnn, `0x1nnn` (R55). -/
  | jump (nnn : Addr12)
  /-- CALL nnn, `0x2nnn` (R56). -/
  | call (nnn : Addr12)
  /-- SKIP-EQ-IMM Vx, kk, `0x3xkk` (spec/41_skip.md R58). -/
  | skipEqImm (x : RegIdx) (kk : Byte)
  /-- SKIP-NE-IMM Vx, kk, `0x4xkk` (R59). -/
  | skipNeImm (x : RegIdx) (kk : Byte)
  /-- SKIP-EQ-REG Vx, Vy, `0x5xy0` (R60). -/
  | skipEqReg (x y : RegIdx)
  /-- LOAD-IMM Vx, kk, `0x6xkk` (spec/42_immediate.md R62). -/
  | loadImm (x : RegIdx) (kk : Byte)
  /-- ADD-IMM Vx, kk, `0x7xkk` (R63). -/
  | addImm (x : RegIdx) (kk : Byte)
  /-- LOAD-REG Vx, Vy, `0x8xy0` (spec/43_alu.md R65). -/
  | loadReg (x y : RegIdx)
  /-- OR Vx, Vy, `0x8xy1` (R66). -/
  | orReg (x y : RegIdx)
  /-- AND Vx, Vy, `0x8xy2` (R67). -/
  | andReg (x y : RegIdx)
  /-- XOR Vx, Vy, `0x8xy3` (R68). -/
  | xorReg (x y : RegIdx)
  /-- ADD-CARRY Vx, Vy, `0x8xy4` (R69). -/
  | addCarry (x y : RegIdx)
  deriving DecidableEq, Repr

/-- The mnemonic of an instruction, as spec/opcode_table.json and spec/30_encoding.md R51 spell it. -/
def Instr.mnemonic : Instr → String
  | .halt => "HALT"
  | .clear => "CLEAR"
  | .ret => "RETURN"
  | .jump _ => "JUMP"
  | .call _ => "CALL"
  | .skipEqImm _ _ => "SKIP-EQ-IMM"
  | .skipNeImm _ _ => "SKIP-NE-IMM"
  | .skipEqReg _ _ => "SKIP-EQ-REG"
  | .loadImm _ _ => "LOAD-IMM"
  | .addImm _ _ => "ADD-IMM"
  | .loadReg _ _ => "LOAD-REG"
  | .orReg _ _ => "OR"
  | .andReg _ _ => "AND"
  | .xorReg _ _ => "XOR"
  | .addCarry _ _ => "ADD-CARRY"

/-- The general registers an instruction reads (spec/10_state.md R16). -/
def Instr.readSet : Instr → List RegIdx
  | .halt | .clear | .ret | .jump _ | .call _ | .loadImm _ _ => []
  | .skipEqImm x _ | .skipNeImm x _ | .addImm x _ => [x]
  | .loadReg _ y => [y]
  | .skipEqReg x y | .orReg x y | .andReg x y | .xorReg x y | .addCarry x y => [x, y]

/-- The general registers an instruction writes (spec/10_state.md R16; ADD-CARRY also writes VF). -/
def Instr.writeSet : Instr → List RegIdx
  | .halt | .clear | .ret | .jump _ | .call _ => []
  | .skipEqImm _ _ | .skipNeImm _ _ | .skipEqReg _ _ => []
  | .loadImm x _ | .addImm x _ | .loadReg x _ => [x]
  | .orReg x _ | .andReg x _ | .xorReg x _ => [x]
  | .addCarry x _ => [x, 15]

end Sys2Proof
end

