-- ==== Sys2Proof/WellFormed.lean ====
section
/-! DEFINITION. Which words are opcodes: the opcode map of spec/30_encoding.md R47, row by row, and the check that a word
matches one of its rows (R48: any other word is unimplemented). The operand types of `Instr` admit exactly the values the
fields of R42 have, so an instruction term needs no check of its own: every term of `Instr` is well formed. What can be ill
formed is a word (`wellFormedWord`) and a launch (`Launch.wellFormed`, in Machine/HostInterface.lean: spec/10_state.md R28). -/

namespace Sys2Proof

/-- A row of the opcode map (R47): `op` selects the row's instruction when `op &&& mask = pattern` (its "match"). -/
structure OpcodeRow where
  pattern : Word
  mask : Word
  mnemonic : String
  deriving DecidableEq, Repr

/-- Does the word select this row? (R47) -/
def OpcodeRow.matchesWord (r : OpcodeRow) (op : Word) : Bool := op &&& r.mask == r.pattern

/-- The opcode map, in the table's order (R47). -/
def opcodeMap : List OpcodeRow :=
  [ ⟨0x0000#16, 0xFFFF#16, "HALT"⟩, ⟨0x00E0#16, 0xFFFF#16, "CLEAR"⟩, ⟨0x00EE#16, 0xFFFF#16, "RETURN"⟩ ] ++
  [ ⟨0x1000#16, 0xF000#16, "JUMP"⟩, ⟨0x2000#16, 0xF000#16, "CALL"⟩ ] ++
  [ ⟨0x3000#16, 0xF000#16, "SKIP-EQ-IMM"⟩, ⟨0x4000#16, 0xF000#16, "SKIP-NE-IMM"⟩, ⟨0x5000#16, 0xF00F#16, "SKIP-EQ-REG"⟩ ] ++
  [ ⟨0x6000#16, 0xF000#16, "LOAD-IMM"⟩, ⟨0x7000#16, 0xF000#16, "ADD-IMM"⟩ ] ++
  [ ⟨0x8000#16, 0xF00F#16, "LOAD-REG"⟩, ⟨0x8001#16, 0xF00F#16, "OR"⟩, ⟨0x8002#16, 0xF00F#16, "AND"⟩,
    ⟨0x8003#16, 0xF00F#16, "XOR"⟩, ⟨0x8004#16, 0xF00F#16, "ADD-CARRY"⟩ ]

/-- A word is an opcode of this ISA when some row of the map selects it (R47, R48). -/
def wellFormedWord (op : Word) : Bool := opcodeMap.any (·.matchesWord op)

end Sys2Proof
end

