-- ==== Sys2Proof/Decode.lean ====
section
/-! DEFINITION. Decoding (spec/30_encoding.md R42, R43, R46, R47, R48) and, after it, encoding. The decoder classifies a word
by its major opcode, as R46 recommends; that it accepts exactly the words of the opcode map `opcodeMap` is a statement. -/

namespace Sys2Proof

/-- Why bytes are no instruction. -/
inductive DecodeReject where
  /-- R45's `Unimplemented`: the word matches no row of the opcode map (R48). -/
  | unimplemented (op : Word)
  /-- Fewer than two bytes: no whole opcode (R41). The machine never meets it, since a fetch reads two bytes. -/
  | tooFewBytes
  deriving DecidableEq, Repr

/-- The word whose high byte is `hi` and low byte `lo` (spec/20_memory.md R32; spec/00_scope.md R9). -/
def wordOfBytes (hi lo : Byte) : Word := hi ++ lo

/-- The byte a word stores first: bits 15..8 (R41, spec/20_memory.md R32). -/
def highByte (w : Word) : Byte := w.extractLsb' 8 8

/-- The byte a word stores second: bits 7..0. -/
def lowByte (w : Word) : Byte := w.extractLsb' 0 8

/-- A 4-bit field read as a register index (R44: it selects the register directly). -/
def regOfField (f : BitVec 4) : RegIdx := f.toFin

/-- A register index as the 4-bit field that names it. -/
def fieldOfReg (x : RegIdx) : BitVec 4 := BitVec.ofFin x

/-- `h`, the major opcode, `op[15:12]` (R42). -/
def majorOf (op : Word) : BitVec 4 := op.extractLsb' 12 4

/-- `x`, `op[11:8]` (R42). -/
def xOf (op : Word) : RegIdx := regOfField (op.extractLsb' 8 4)

/-- `y`, `op[7:4]` (R42). -/
def yOf (op : Word) : RegIdx := regOfField (op.extractLsb' 4 4)

/-- `n`, the sub-opcode, `op[3:0]` (R42). -/
def subOf (op : Word) : BitVec 4 := op.extractLsb' 0 4

/-- `kk`, `op[7:0]` (R42). -/
def kkOf (op : Word) : Byte := op.extractLsb' 0 8

/-- `nnn`, `op[11:0]` (R42). -/
def nnnOf (op : Word) : Addr12 := op.extractLsb' 0 12

/-- Major opcode 0: only the three fixed words of format Z are mapped (R43, R48). -/
def decodeFixed (op : Word) : Except DecodeReject Instr :=
  if op = 0x0000#16 then .ok .halt
  else if op = 0x00E0#16 then .ok .clear
  else if op = 0x00EE#16 then .ok .ret
  else .error (.unimplemented op)

/-- Major opcode 8: the sub-opcode selects the function; 5 to F are unimplemented (R48; spec/43_alu.md R64). -/
def decodeAlu (op : Word) : Except DecodeReject Instr :=
  match (subOf op).toNat with
  | 0 => .ok (.loadReg (xOf op) (yOf op))
  | 1 => .ok (.orReg (xOf op) (yOf op))
  | 2 => .ok (.andReg (xOf op) (yOf op))
  | 3 => .ok (.xorReg (xOf op) (yOf op))
  | 4 => .ok (.addCarry (xOf op) (yOf op))
  | _ => .error (.unimplemented op)

/-- The decoder, total over the 65536 words; it reads nothing but the word (R46, R47, R48). -/
def decode (op : Word) : Except DecodeReject Instr :=
  match (majorOf op).toNat with
  | 0 => decodeFixed op
  | 1 => .ok (.jump (nnnOf op))
  | 2 => .ok (.call (nnnOf op))
  | 3 => .ok (.skipEqImm (xOf op) (kkOf op))
  | 4 => .ok (.skipNeImm (xOf op) (kkOf op))
  | 5 => if subOf op = 0#4 then .ok (.skipEqReg (xOf op) (yOf op)) else .error (.unimplemented op)
  | 6 => .ok (.loadImm (xOf op) (kkOf op))
  | 7 => .ok (.addImm (xOf op) (kkOf op))
  | 8 => decodeAlu op
  | _ => .error (.unimplemented op)

/-- Decoding a list of bytes: one opcode is two bytes, high byte first (R41); the rest of the list is handed back. -/
def decodeBytes : List Byte → Except DecodeReject (Instr × List Byte)
  | hi :: lo :: rest => (decode (wordOfBytes hi lo)).map (·, rest)
  | _ => .error .tooFewBytes

/-! ## The encoder, from the formats of R43 and the patterns of R47 -/

/-- Format NNN (R43). -/
def formatNNN (h : BitVec 4) (nnn : Addr12) : Word := h ++ nnn

/-- Format XKK (R43). -/
def formatXKK (h : BitVec 4) (x : RegIdx) (kk : Byte) : Word := h ++ (fieldOfReg x ++ kk)

/-- Format XYN (R43). -/
def formatXYN (h : BitVec 4) (x y : RegIdx) (n : BitVec 4) : Word := h ++ (fieldOfReg x ++ (fieldOfReg y ++ n))

/-- The word of an instruction (R43, R47). -/
def encode : Instr → Word
  | .halt => 0x0000#16
  | .clear => 0x00E0#16
  | .ret => 0x00EE#16
  | .jump nnn => formatNNN 0x1#4 nnn
  | .call nnn => formatNNN 0x2#4 nnn
  | .skipEqImm x kk => formatXKK 0x3#4 x kk
  | .skipNeImm x kk => formatXKK 0x4#4 x kk
  | .skipEqReg x y => formatXYN 0x5#4 x y 0x0#4
  | .loadImm x kk => formatXKK 0x6#4 x kk
  | .addImm x kk => formatXKK 0x7#4 x kk
  | .loadReg x y => formatXYN 0x8#4 x y 0x0#4
  | .orReg x y => formatXYN 0x8#4 x y 0x1#4
  | .andReg x y => formatXYN 0x8#4 x y 0x2#4
  | .xorReg x y => formatXYN 0x8#4 x y 0x3#4
  | .addCarry x y => formatXYN 0x8#4 x y 0x4#4

/-- The two bytes of an instruction as memory holds them, high byte first (R41). -/
def encodeBytes (i : Instr) : List Byte := [highByte (encode i), lowByte (encode i)]

/-- The instruction the decoder reads from a table word: `nbits` bits of `w`, bit 0 the least significant bit of the one
16-bit word an instruction is (R41), laid out high byte first. No instruction is longer than 16 bits. -/
def decodeTableWord (nbits w : Nat) : Option Instr :=
  if nbits ≤ 16 then
    let op : Word := BitVec.ofNat 16 (w % 2 ^ nbits)
    match decodeBytes [highByte op, lowByte op] with
    | .ok (i, _) => some i
    | .error _ => none
  else none

end Sys2Proof
end

