-- ==== Sys2Proof/Config.lean ====
section
/-! DEFINITION. The parameters of this hardware (spec/00_scope.md R7: "fixed as follows; no parameter is left to the
model as an argument"). The spec leaves no value free, so this file has no free value. -/

namespace Sys2Proof.Config

/-- Memory is 4096 bytes, addresses 0..4095 (R7; spec/20_memory.md R30). -/
def memSize : Nat := 4096

/-- The return stack has 16 entries (R7; spec/10_state.md R22). -/
def stackDepth : Nat := 16

/-- The reset vector is address 0x000 (spec/70_reset_and_hazards.md R83). -/
def resetPc : Word := 0x0000#16

/-- Register VF, index 0xF, which ADD-CARRY writes as its carry flag (spec/10_state.md R15). -/
def vf : RegIdx := 15

end Sys2Proof.Config
end

