-- ==== Sys2Proof/Machine/State.lean ====
section
/-! DEFINITION. The machine's state (spec/10_state.md R13: `mem`, `V`, `pc`, `S`, `sp`, `status`; R26, R27: "There is no other
state"), its value after reset (R27), and the reasons a step can stop. -/

namespace Sys2Proof.Machine

/-- The direction a stack failure records (spec/60_exceptions.md R72). -/
inductive StackDirection where
  | overflow
  | underflow
  deriving DecidableEq, Repr

/-- A failure with what it records: the pair `(cause, info)` (spec/10_state.md R25; spec/60_exceptions.md R72). The two stack
failures record their direction, which the cause fixes (`Failure.info`). -/
inductive Failure where
  /-- Decode: the fetched word matches no row of the opcode map. -/
  | unimplementedOpcode (op : Word)
  /-- CALL with `sp == 16`. -/
  | stackOverflow
  /-- RETURN with `sp == 0`. -/
  | stackUnderflow
  /-- A byte address above 4095 was read (or, for the host's write, written). -/
  | outOfBounds (addr : Nat)
  deriving DecidableEq, Repr

/-- The `info` of a failure record (spec/60_exceptions.md R72). -/
inductive FailureInfo where
  | opcode (op : Word)
  | direction (d : StackDirection)
  | address (addr : Nat)
  deriving DecidableEq, Repr

/-- The run status (spec/10_state.md R24). -/
inductive Status where
  /-- The run loop is executing steps; the only steppable status. -/
  | running
  /-- A HALT was executed; terminal. -/
  | halted
  /-- A failure occurred; terminal. -/
  | faulted (f : Failure)
  deriving DecidableEq, Repr

/-- Memory as its cells (address, byte), addresses strictly rising and below 4096, no cell equal to what an unlisted address
reads as (`Memory.wf`, in Ops.lean). -/
abbrev Memory := List Host.Cell

/-- The complete architectural state (spec/10_state.md R13). -/
structure State where
  /-- 4096 bytes of memory (R13; spec/20_memory.md R30). -/
  mem : Memory
  /-- The general registers V0..VF (R14); VF is index 15 of the file (R15). -/
  v : Vector Byte 16
  /-- The program counter (R19). -/
  pc : Word
  /-- The return stack S[0]..S[15] (R22). -/
  stack : Vector Word 16
  /-- The stack pointer, 0..16 (R23). -/
  sp : Fin 17
  /-- The run status with the failure record (R24, R25). -/
  status : Status
  deriving DecidableEq, Repr

/-- Reset is construction with every field zeroed, status Running (spec/10_state.md R27; spec/70_reset_and_hazards.md R83). -/
def State.reset : State where
  mem := []
  v := Vector.replicate 16 0x00#8
  pc := Config.resetPc
  stack := Vector.replicate 16 0x0000#16
  sp := 0
  status := .running

/-- Why `step` answers no next state. A FAILURE OF THE HARDWARE IS NOT ONE OF THESE: it is a next state whose status is
`faulted` (spec/60_exceptions.md R73). -/
inductive Fault where
  /-- Raised by `step` on a machine whose status is Halted: no step is taken (spec/10_state.md R24; spec/60_exceptions.md R81).
  Safe: the machine stops where the hardware stops. -/
  | alreadyHalted
  /-- Raised by `step` on a machine whose status is Faulted, with the failure it holds: no step is taken (spec/10_state.md R24;
  spec/60_exceptions.md R77). Safe: the machine stops where the hardware stops. -/
  | alreadyFaulted (f : Failure)
  deriving DecidableEq, Repr

/-- What the model gives no meaning to. -/
inductive Refusal where
  /-- Raised by an arm of `exec` whose instruction has no meaning yet. Safe. No arm raises it. -/
  | notModelled (mnemonic : String)
  /-- Raised by `launch` for a launch with `sp > 16`, which a model refuses (spec/10_state.md R28). Safe: nothing can be
  proved about such a launch. -/
  | stackPointerOutOfRange (sp : Nat)
  deriving DecidableEq, Repr

end Sys2Proof.Machine
end

