-- ==== Sys2Proof/Machine/Ops.lean ====
section
/-! DEFINITION. The named operations over the state (the primitives of spec/00_scope.md R10): register, program-counter, stack
and status access; memory reads and writes; the instruction fetch; push and pop; entering a failure, the one shared operation
every failure goes through (spec/60_exceptions.md R73). There is no return from a failure (R77), so there is no such operation. -/

namespace Sys2Proof.Machine

/-- What `exec` and `step` answer. -/
abbrev Result := Host.Outcome State Fault Refusal

/-! ## State access (R10) -/

/-- `V[i]`. -/
def State.reg (s : State) (i : RegIdx) : Byte := s.v[i]

/-- `V[i] <- b`. -/
def State.setReg (s : State) (i : RegIdx) (b : Byte) : State := { s with v := s.v.set i b }

/-- `S[j]`. -/
def State.stackAt (s : State) (j : Fin 16) : Word := s.stack[j]

/-- `S[j] <- w`. -/
def State.setStackAt (s : State) (j : Fin 16) (w : Word) : State := { s with stack := s.stack.set j w }

/-- `pc <- t`. -/
def State.setPc (s : State) (t : Word) : State := { s with pc := t }

/-- `sp <- n`. -/
def State.setSp (s : State) (n : Fin 17) : State := { s with sp := n }

/-- `status <- st`. -/
def State.setStatus (s : State) (st : Status) : State := { s with status := st }

/-- All of `mem` at once: the host's load only, since no instruction writes memory (spec/20_memory.md R33). -/
def State.setMem (s : State) (m : Memory) : State := { s with mem := m }

/-! ## Memory (spec/20_memory.md) -/

/-- What an address with no cell reads as: 0x00, memory's reset contents (spec/10_state.md R27). -/
def Memory.unlisted : Byte := 0x00#8

/-- The byte a list of cells holds at an address. -/
def Memory.byteAt : Memory → Nat → Byte
  | [], _ => Memory.unlisted
  | (k, b) :: rest, a => if k = a then b else Memory.byteAt rest a

/-- Put a byte at an address, keeping the cells in canonical form: a byte that an unlisted address reads as has no cell. -/
def Memory.setByte : Memory → Nat → Byte → Memory
  | [], a, b => if b = Memory.unlisted then [] else [(a, b)]
  | (k, c) :: rest, a, b =>
    if a < k then (if b = Memory.unlisted then (k, c) :: rest else (a, b) :: (k, c) :: rest)
    else if a = k then (if b = Memory.unlisted then rest else (a, b) :: rest)
    else (k, c) :: Memory.setByte rest a b

/-- The cells' addresses are strictly rising from `lo`, inside memory, and no cell holds the unlisted value. -/
def Memory.wfFrom : Nat → Memory → Bool
  | _, [] => true
  | lo, (k, b) :: rest =>
    decide (lo ≤ k) && decide (k < Config.memSize) && decide (b ≠ Memory.unlisted) && Memory.wfFrom (k + 1) rest

/-- The canonical form of memory. -/
def Memory.wf (m : Memory) : Bool := Memory.wfFrom 0 m

/-- `MemRead(addr, 1)` (R30): the byte, or the failure OutOfBounds(addr). No read has a side effect (R35). -/
def memRead (m : Memory) (a : Nat) : Except Failure Byte :=
  if a < Config.memSize then .ok (Memory.byteAt m a) else .error (.outOfBounds a)

/-- `MemWrite(addr, 1, b)` (R33): no instruction uses it; the host's load does. -/
def memWrite (m : Memory) (a : Nat) (b : Byte) : Except Failure Memory :=
  if a < Config.memSize then .ok (Memory.setByte m a b) else .error (.outOfBounds a)

/-- The loader's layout of one opcode at `a`: two consecutive bytes, high byte first (R32; spec/70_reset_and_hazards.md R84). -/
def Memory.placeWord (m : Memory) (a : Nat) (op : Word) : Memory :=
  Memory.setByte (Memory.setByte m a (highByte op)) (a + 1) (lowByte op)

/-- The instruction fetch: byte `pc`, then byte `pc + 1`, high byte first; the first read above 4095 fails (R31, R32;
spec/30_encoding.md R45). The addresses are exact sums: `pc + 1` does not wrap (spec/10_state.md R21). -/
def fetchWord (s : State) : Except Failure Word :=
  match memRead s.mem s.pc.toNat with
  | .error f => .error f
  | .ok hi =>
    match memRead s.mem (s.pc.toNat + 1) with
    | .error f => .error f
    | .ok lo => .ok (wordOfBytes hi lo)

/-! ## Failures (spec/60_exceptions.md) -/

/-- The numeric cause code of a failure (R72). -/
def Failure.code : Failure → Nat
  | .unimplementedOpcode _ => 1
  | .stackOverflow => 2
  | .stackUnderflow => 3
  | .outOfBounds _ => 4

/-- The info a failure records (R72). -/
def Failure.info : Failure → FailureInfo
  | .unimplementedOpcode op => .opcode op
  | .stackOverflow => .direction .overflow
  | .stackUnderflow => .direction .underflow
  | .outOfBounds a => .address a

/-- `raise F(info)`: entering a failure. The status becomes Faulted with the record, every write made before stands and nothing
else is written: no register saves anything, no mode changes, and control goes to no handler (R73). `s` is the state at the
failing statement. -/
def raiseFailure (f : Failure) (s : State) : Result := .next (s.setStatus (.faulted f))

/-- `halt`: the status becomes Halted (spec/40_system_and_flow.md R52). -/
def haltRun (s : State) : Result := .next (s.setStatus .halted)

/-! ## The return stack (spec/10_state.md R22, R23) -/

/-- A push: write `S[sp]`, then increment `sp`; a full stack (`sp == 16`) is StackOverflow, with nothing written. -/
def push (w : Word) (s : State) : Except Failure State :=
  if h : s.sp.val < 16 then
    .ok ((s.setStackAt ⟨s.sp.val, h⟩ w).setSp ⟨s.sp.val + 1, by omega⟩)
  else .error .stackOverflow

/-- A pop: decrement `sp`, then read `S[sp]`, which is left as it is; an empty stack (`sp == 0`) is StackUnderflow. -/
def pop (s : State) : Except Failure (Word × State) :=
  if h : s.sp.val = 0 then .error .stackUnderflow
  else .ok (s.stackAt ⟨s.sp.val - 1, by omega⟩, s.setSp ⟨s.sp.val - 1, by omega⟩)

/-! ## The program counter (spec/10_state.md R20) -/

/-- `pc <- pc + 2`: the fetch advance, and what a taken skip adds. -/
def advance (s : State) : State := s.setPc (s.pc + 2#16)

end Sys2Proof.Machine
end

