-- ==== Sys2Proof/Machine/Operands.lean ====
section
/-! DEFINITION. The operand forms: a register named by `x` or `y` is `State.reg`; an immediate is used unchanged, and the address
immediate is zero-extended to the program counter (spec/30_encoding.md R44). And the ALU's 8-bit results (spec/43_alu.md R64). -/

namespace Sys2Proof.Machine

/-- `zext_16(nnn)` (spec/30_encoding.md R44). -/
def zext16 (nnn : Addr12) : Word := nnn.setWidth 16

/-- The ALU's functions, in the order of the sub-opcode `n` (spec/43_alu.md R64). -/
inductive AluFn where
  | pass
  | or
  | and
  | xor
  | add
  deriving DecidableEq, Repr

/-- `(a + b) mod 256`, the exact sum narrowed (spec/43_alu.md R70). -/
def add8 (a b : Byte) : Byte := BitVec.ofNat 8 (a.toNat + b.toNat)

/-- The ALU's 8-bit result column (spec/43_alu.md R64). -/
def aluResult : AluFn → Byte → Byte → Byte
  | .pass, _, b => b
  | .or, a, b => a ||| b
  | .and, a, b => a &&& b
  | .xor, a, b => a ^^^ b
  | .add, a, b => add8 a b

end Sys2Proof.Machine
end

