-- ==== Sys2Proof/Machine/Flags.lean ====
section
/-! DEFINITION. The one flag computation of this ISA: ADD's carry out (spec/43_alu.md R64: "There is no separate flag register and
no other flag"). Only ADD-CARRY writes it, to VF (spec/10_state.md R15). -/

namespace Sys2Proof.Machine

/-- The unsigned carry of `a + b`: 1 if `a + b > 255`, else 0 (spec/43_alu.md R64, R69). -/
def carryOut (a b : Byte) : Byte := if a.toNat + b.toNat > 255 then 0x01#8 else 0x00#8

end Sys2Proof.Machine
end

