-- ==== Sys2Proof/Machine/Alu.lean ====
section
/-! DEFINITION. The register-register ALU instructions (spec/43_alu.md). `pc` already holds A + 2; both operands are read before
any register is written (R71). -/

namespace Sys2Proof.Machine

/-- `V[x] <- fn(V[x], V[y])`, no other register written (R64). -/
def aluToReg (fn : AluFn) (x y : RegIdx) (s : State) : State := s.setReg x (aluResult fn (s.reg x) (s.reg y))

/-- LOAD-REG: `V[x] <- V[y]` (R65). -/
def execLoadReg (x y : RegIdx) (s : State) : Result := .next (aluToReg .pass x y s)

/-- OR: `V[x] <- V[x] | V[y]`; VF is not written unless it is `x` (R66). -/
def execOr (x y : RegIdx) (s : State) : Result := .next (aluToReg .or x y s)

/-- AND: `V[x] <- V[x] & V[y]`; VF is not written unless it is `x` (R67). -/
def execAnd (x y : RegIdx) (s : State) : Result := .next (aluToReg .and x y s)

/-- XOR: `V[x] <- V[x] ^ V[y]`; VF is not written unless it is `x` (R68). -/
def execXor (x y : RegIdx) (s : State) : Result := .next (aluToReg .xor x y s)

/-- ADD-CARRY: `V[x] <- (a + b) mod 256`, then, last and always, `V[0xF] <- carry` (R69); with `x = 0xF` the carry remains
(R71; spec/92_eei_decisions.md D6). -/
def execAddCarry (x y : RegIdx) (s : State) : Result :=
  .next ((aluToReg .add x y s).setReg Config.vf (carryOut (s.reg x) (s.reg y)))

end Sys2Proof.Machine
end

