-- ==== Sys2Proof/Machine/Flow.lean ====
section
/-! DEFINITION. The system and control-transfer instructions HALT, CLEAR, RETURN, JUMP, CALL (spec/40_system_and_flow.md). `pc`
already holds A + 2. Targets are not checked when set; the check is the next fetch's (R57). -/

namespace Sys2Proof.Machine

/-- HALT: the status becomes Halted, `pc` stays at A + 2 (R52; spec/92_eei_decisions.md D5). -/
def execHalt (s : State) : Result := haltRun s

/-- CLEAR: no operation, there is no display in this core (R53). -/
def execClear (s : State) : Result := .next s

/-- RETURN: an empty stack fails; else `sp <- sp - 1`, `pc <- S[sp]`, unchecked, the entry left as it is (R54; D7). -/
def execReturn (s : State) : Result :=
  match pop s with
  | .error f => raiseFailure f s
  | .ok (target, popped) => .next (popped.setPc target)

/-- JUMP: `pc <- zext_16(nnn)`, unchecked (R55). -/
def execJump (nnn : Addr12) (s : State) : Result := .next (s.setPc (zext16 nnn))

/-- CALL: a full stack fails; else push `pc` (A + 2, the return address), then `pc <- zext_16(nnn)` (R56). -/
def execCall (nnn : Addr12) (s : State) : Result :=
  match push s.pc s with
  | .error f => raiseFailure f s
  | .ok pushed => .next (pushed.setPc (zext16 nnn))

end Sys2Proof.Machine
end

