-- ==== Sys2Proof/Machine/Immediate.lean ====
section
/-! DEFINITION. The register-immediate instructions LOAD-IMM and ADD-IMM (spec/42_immediate.md). `pc` already holds A + 2. -/

namespace Sys2Proof.Machine

/-- LOAD-IMM: `V[x] <- kk` (R62). -/
def execLoadImm (x : RegIdx) (kk : Byte) (s : State) : Result := .next (s.setReg x kk)

/-- ADD-IMM: `V[x] <- (V[x] + kk) mod 256`; the carry is discarded and VF is written only as `x` (R63). -/
def execAddImm (x : RegIdx) (kk : Byte) (s : State) : Result := .next (s.setReg x (add8 (s.reg x) kk))

end Sys2Proof.Machine
end

