-- ==== Sys2Proof/Machine/Skip.lean ====
section
/-! DEFINITION. The skip instructions (spec/41_skip.md). `pc` already holds A + 2; a taken skip adds 2 and does nothing else: the
skipped word is neither fetched nor decoded (R61). -/

namespace Sys2Proof.Machine

/-- `if c: pc <- pc + 2` (R61). -/
def skipIf (c : Bool) (s : State) : Result := .next (if c then advance s else s)

/-- SKIP-EQ-IMM: skip when `V[x] == kk` (R58). -/
def execSkipEqImm (x : RegIdx) (kk : Byte) (s : State) : Result := skipIf (s.reg x == kk) s

/-- SKIP-NE-IMM: skip when `V[x] != kk` (R59). -/
def execSkipNeImm (x : RegIdx) (kk : Byte) (s : State) : Result := skipIf (s.reg x != kk) s

/-- SKIP-EQ-REG: skip when `V[x] == V[y]` (R60). -/
def execSkipEqReg (x y : RegIdx) (s : State) : Result := skipIf (s.reg x == s.reg y) s

end Sys2Proof.Machine
end

