-- ==== Sys2Proof/Machine/Cycle.lean ====
section
/-! DEFINITION. One step of the Machine in the order of spec/30_encoding.md R45: fetch, advance, decode, execute; and placing a word
where the next step fetches. `step` and `withFetchWord` (Machine/Step.lean) call these. -/

namespace Sys2Proof.Machine

/-- Decode and execute a fetched word; `s` already holds the advanced `pc` (R45). An unimplemented word fails (R48). -/
def dispatchWord (op : Word) (s : State) : Result :=
  match decode op with
  | .ok i => exec i s
  | .error _ => raiseFailure (.unimplementedOpcode op) s

/-- Fetch, advance, decode, execute, on a running machine (R45). A failing fetch leaves `pc` at A: the advance has not happened. -/
def cycle (s : State) : Result :=
  match fetchWord s with
  | .error f => raiseFailure f s
  | .ok op => dispatchWord op (advance s)

/-- A step is taken only while the status is Running (spec/10_state.md R24); a Halted or Faulted machine takes none
(spec/60_exceptions.md R77, R81). -/
def runStep (s : State) : Result :=
  match s.status with
  | .running => cycle s
  | .halted => .fault .alreadyHalted
  | .faulted f => .fault (.alreadyFaulted f)

/-- `s` ready to fetch the word `op` next: the word stands at `pc`, high byte first, and the machine is Running. A `pc` from which
no word can be fetched (above 4094) is moved to the reset vector. -/
def placeNextWord (s : State) (op : Word) : State :=
  let at_ : Word := if s.pc.toNat + 1 < Config.memSize then s.pc else Config.resetPc
  ((s.setMem (Memory.placeWord s.mem at_.toNat op)).setPc at_).setStatus .running

end Sys2Proof.Machine
end

