-- ==== Sys2Proof/Machine/Step.lean ====
section
/-! DEFINITION. The step (spec/10_state.md R18: one instruction, from fetch to completion, is one indivisible transition), and the
state with a given instruction placed where the step fetches next. Both only call Machine/Cycle.lean. -/

namespace Sys2Proof.Machine

/-- One step of the Machine (spec/30_encoding.md R45). -/
def step (s : State) : Host.Outcome State Fault Refusal := runStep s

/-- `s` with a table word placed where `step` fetches next: `nbits` bits of `w`, bit 0 the least significant bit of the 16-bit
opcode (spec/30_encoding.md R41). It stands for the host's load of a program (log 11). -/
def State.withFetchWord (s : State) (nbits w : Nat) : State := placeNextWord s (BitVec.ofNat 16 (w % 2 ^ nbits))

end Sys2Proof.Machine
end

