-- ==== Sys2Proof/Machine/HostInterface.lean ====
section
/-! DEFINITION. What the host can do to the machine: state load and run (a launch), completion, state inspect
(spec/10_state.md R17, R28, R29; spec/70_reset_and_hazards.md R84, R85), and running to an end (spec/60_exceptions.md R82). -/

namespace Sys2Proof.Machine

/-- The values the host loads before `run` (spec/10_state.md R17): bytes written over zeroed memory, in order, at addresses that
exist, and the registers, program counter, stack entries and stack pointer. The stack pointer is any number, so that a launch
the model refuses can be written. -/
structure Launch where
  mem : List (Fin 4096 × Byte)
  v : Vector Byte 16
  pc : Word
  stack : Vector Word 16
  sp : Nat
  deriving DecidableEq, Repr

/-- A launch is well formed when `sp <= 16` (spec/10_state.md R28). -/
def Launch.wellFormed (l : Launch) : Bool := decide (l.sp ≤ 16)

/-- The loader's writes over zeroed memory (spec/70_reset_and_hazards.md R84). -/
def loadBytes (m : Memory) : List (Fin 4096 × Byte) → Memory
  | [] => m
  | (a, b) :: rest => loadBytes (Memory.setByte m a.val b) rest

/-- Launching: the loaded machine, Running (spec/70_reset_and_hazards.md R84), or the refusal of `sp > 16`
(R85; spec/10_state.md R28). No other launch value is refused. -/
def launch (l : Launch) : Result :=
  if h : l.sp ≤ 16 then
    .next { mem := loadBytes [] l.mem, v := l.v, pc := l.pc, stack := l.stack, sp := ⟨l.sp, by omega⟩, status := .running }
  else .refused (.stackPointerOutOfRange l.sp)

/-- The cells of a memory as loads, those at an address that exists. -/
def loadsOf : Memory → List (Fin 4096 × Byte)
  | [] => []
  | (k, b) :: rest => if h : k < 4096 then (⟨k, h⟩, b) :: loadsOf rest else loadsOf rest

/-- A machine's state as the pre-populated state of a new launch (spec/60_exceptions.md R81). -/
def Launch.ofState (s : State) : Launch :=
  { mem := loadsOf s.mem, v := s.v, pc := s.pc, stack := s.stack, sp := s.sp.val }

/-- What the completion interface carries when the core stops (spec/10_state.md R17; spec/60_exceptions.md R72). -/
inductive Completion where
  | halted
  | faulted (code : Nat) (info : FailureInfo)
  deriving DecidableEq, Repr

/-- The completion report: nothing while the machine is running. -/
def State.completion (s : State) : Option Completion :=
  match s.status with
  | .running => none
  | .halted => some .halted
  | .faulted f => some (.faulted f.code f.info)

/-- The items the host can inspect (spec/10_state.md R17). -/
inductive Item where
  | mem (a : Fin 4096)
  | reg (i : RegIdx)
  | pc
  | stack (j : Fin 16)
  | sp
  deriving DecidableEq, Repr

/-- The value of an item, as a number. -/
def State.item (s : State) : Item → Nat
  | .mem a => (Memory.byteAt s.mem a.val).toNat
  | .reg i => (s.reg i).toNat
  | .pc => s.pc.toNat
  | .stack j => (s.stackAt j).toNat
  | .sp => s.sp.val

/-- State inspect: only after the core stops (spec/10_state.md R17, R29). -/
def State.inspect (s : State) (it : Item) : Option Nat :=
  match s.status with
  | .running => none
  | .halted | .faulted _ => some (s.item it)

/-- How a run bounded by fuel ends (spec/60_exceptions.md R82): the machine stopped, or it has not ended yet. -/
inductive RunEnd where
  | ended (s : State)
  | notEnded (s : State)
  deriving DecidableEq, Repr

/-- `run` (spec/30_encoding.md R45, spec/60_exceptions.md R82) with at most `fuel` steps: exhausted fuel is "not ended", never
halted. A step that answers no next state is one of a stopped machine. -/
def run : Nat → State → RunEnd
  | 0, s => if s.status = .running then .notEnded s else .ended s
  | fuel + 1, s =>
    match step s with
    | .next t => run fuel t
    | .fault _ => .ended s
    | .refused _ => .ended s

end Sys2Proof.Machine
end

