-- ==== Sys2Proof/Safety.lean ====
section
/-! DEFINITION. The terms claims use: frames (what stays as it was), the invariant of the machine, a safe status, and
instructions executed back to back. -/

namespace Sys2Proof.Machine

/-! ## Frames -/

/-- Every byte of memory reads in `t` as it reads in `s`. -/
def State.memSame (s t : State) : Prop := ∀ a : Nat, memRead t.mem a = memRead s.mem a

/-- Every general register outside `w` holds in `t` what it holds in `s`. -/
def State.regsSameBut (s : State) (w : List RegIdx) (t : State) : Prop := ∀ i : RegIdx, i ∉ w → t.reg i = s.reg i

/-- Every entry of the return stack, live or not, holds in `t` what it holds in `s`. -/
def State.entriesSame (s t : State) : Prop := ∀ j : Fin 16, t.stackAt j = s.stackAt j

/-- From `s` to `t` nothing changes but the general registers in `w`. -/
def State.onlyRegs (s : State) (w : List RegIdx) (t : State) : Prop :=
  s.regsSameBut w t ∧ t.pc = s.pc ∧ t.sp = s.sp ∧ s.entriesSame t ∧ t.status = s.status ∧ s.memSame t

/-- From `s` to `t` nothing changes but the program counter. -/
def State.onlyPc (s t : State) : Prop :=
  s.regsSameBut [] t ∧ t.sp = s.sp ∧ s.entriesSame t ∧ t.status = s.status ∧ s.memSame t

/-- From `s` to `t` nothing changes but the run status. -/
def State.onlyStatus (s t : State) : Prop :=
  s.regsSameBut [] t ∧ t.pc = s.pc ∧ t.sp = s.sp ∧ s.entriesSame t ∧ s.memSame t

/-! ## The invariant -/

/-- Memory is in canonical form; the program counter is at most 4098, the highest value a taken skip gives (spec/10_state.md
R21); every live return address, `S[0]` to `S[sp-1]` (R23), is at most 4096, the highest value a CALL pushes
(spec/40_system_and_flow.md R56). A launch that pre-populates other values does not meet it. That `sp` is at most 16 (R23)
holds by its type. -/
def State.Inv (s : State) : Prop :=
  Memory.wf s.mem = true ∧ s.pc.toNat ≤ 4098 ∧ ∀ j : Fin 16, j.val < s.sp.val → (s.stackAt j).toNat ≤ 4096

/-! ## Runs -/

/-- The run has not failed. -/
def State.safe (s : State) : Prop := ∀ f : Failure, s.status ≠ .faulted f

/-- Instructions executed back to back, without their fetches, until one stops the machine. -/
def execAll : List Instr → State → Result
  | [], s => .next s
  | i :: rest, s =>
    match exec i s with
    | .next t => if t.status = .running then execAll rest t else .next t
    | .fault r => .fault r
    | .refused r => .refused r

end Sys2Proof.Machine
end

