-- ==== Sys2Proof/Certificates/Slice0/Obligations.lean ====
section
/-! DEFINITION. The statements for the provers. Each says what an instruction or the machine does, from the numbered rules of
spec/. A clause that rests on a decision of spec/92_eei_decisions.md (D<n>) says so and names the log entry. In a statement about
`exec`, `s` already holds the advanced program counter A + 2, as in every pseudocode block of the spec. -/

open Sys2Proof Sys2Proof.Machine

/-! ## Reset and the invariant -/

/-- R27, R83: reset zeroes every field. That the status is Running is the spec's decision D8 (log 8). -/
def Obligations.ResetStateIsAllZero : Prop :=
  (∀ a : Nat, a ≤ 4095 → memRead State.reset.mem a = .ok 0x00#8) ∧
  (∀ i : RegIdx, State.reset.reg i = 0x00#8) ∧ State.reset.pc = 0x0000#16 ∧
  (∀ j : Fin 16, State.reset.stackAt j = 0x0000#16) ∧ State.reset.sp = 0 ∧ State.reset.status = .running

/-- The invariant of Safety.lean holds after reset. -/
def Obligations.ResetStateMeetsInvariant : Prop := State.reset.Inv

/-- R21, R23, R33: from every state that meets the invariant, a step gives a state that meets it: memory keeps its canonical form,
`pc` is at most 4098, every live return address is at most 4096. -/
def Obligations.EveryStepKeepsInvariant : Prop := ∀ s t : State, s.Inv → step s = .next t → t.Inv

/-! ## Encoding -/

/-- Every instruction, with every operand at every value, is read back from its own word. -/
def Obligations.EncodeThenDecodeGivesTheInstruction : Prop := ∀ i : Instr, decode (encode i) = .ok i

/-- A word that decodes is the encoding of what it decodes to: no two words mean the same instruction and no bit is dropped. -/
def Obligations.DecodeThenEncodeGivesTheWord : Prop := ∀ (op : Word) (i : Instr), decode op = .ok i → encode i = op

/-- R46, R47, R48: a word decodes exactly when a row of the opcode map selects it, to the instruction of that row's mnemonic, and
any other word is rejected as unimplemented. -/
def Obligations.DecodeAcceptsExactlyTheOpcodeMap : Prop :=
  (∀ r ∈ opcodeMap, ∀ op : Word, op &&& r.mask = r.pattern → ∃ i : Instr, decode op = .ok i ∧ i.mnemonic = r.mnemonic) ∧
  (∀ op : Word, (∀ r ∈ opcodeMap, op &&& r.mask ≠ r.pattern) → decode op = .error (.unimplemented op))

/-- R46: the patterns are pairwise disjoint, so no word is selected by two rows. -/
def Obligations.OpcodeMapRowsAreDisjoint : Prop :=
  ∀ r ∈ opcodeMap, ∀ r' ∈ opcodeMap, ∀ op : Word, op &&& r.mask = r.pattern → op &&& r'.mask = r'.pattern → r = r'

/-- R42: each operand field is the bits the table gives it, and every instruction's operands are those fields: `x` always bits 8 to
11, `y` always bits 4 to 7 (C1), `kk` and `nnn` the low 8 and 12 bits. -/
def Obligations.OperandFieldsAreTheOpcodeBits : Prop :=
  (∀ op : Word,
    (xOf op).val = op.toNat / 2 ^ 8 % 2 ^ 4 ∧ (yOf op).val = op.toNat / 2 ^ 4 % 2 ^ 4 ∧
    (kkOf op).toNat = op.toNat % 2 ^ 8 ∧ (nnnOf op).toNat = op.toNat % 2 ^ 12 ∧
    (subOf op).toNat = op.toNat % 2 ^ 4 ∧ (majorOf op).toNat = op.toNat / 2 ^ 12) ∧
  (∀ (op : Word) (i : Instr), decode op = .ok i →
    match i with
    | .halt | .clear | .ret => True
    | .jump nnn | .call nnn => nnn.toNat = op.toNat % 2 ^ 12
    | .skipEqImm x kk | .skipNeImm x kk | .loadImm x kk | .addImm x kk =>
      x.val = op.toNat / 2 ^ 8 % 2 ^ 4 ∧ kk.toNat = op.toNat % 2 ^ 8
    | .skipEqReg x y | .loadReg x y | .orReg x y | .andReg x y | .xorReg x y | .addCarry x y =>
      x.val = op.toNat / 2 ^ 8 % 2 ^ 4 ∧ y.val = op.toNat / 2 ^ 4 % 2 ^ 4)

/-- R51's examples, and words of 95_test_vectors.md section 2.1, written out bit by bit. -/
def Obligations.SpecExampleWordsDecode : Prop :=
  decode 0b0000000000000000#16 = .ok .halt ∧ decode 0b0000000011100000#16 = .ok .clear ∧
  decode 0b0000000011101110#16 = .ok .ret ∧ decode 0b0001001000000000#16 = .ok (.jump 0x200#12) ∧
  decode 0b0010000100000000#16 = .ok (.call 0x100#12) ∧ decode 0b0011001100101010#16 = .ok (.skipEqImm 3 0x2A#8) ∧
  decode 0b0100001100101010#16 = .ok (.skipNeImm 3 0x2A#8) ∧ decode 0b0101000100100000#16 = .ok (.skipEqReg 1 2) ∧
  decode 0b0110010111111111#16 = .ok (.loadImm 5 0xFF#8) ∧ decode 0b0111010100000001#16 = .ok (.addImm 5 0x01#8) ∧
  decode 0b1000000000010000#16 = .ok (.loadReg 0 1) ∧ decode 0b1000000000010001#16 = .ok (.orReg 0 1) ∧
  decode 0b1000000000010010#16 = .ok (.andReg 0 1) ∧ decode 0b1000000000010011#16 = .ok (.xorReg 0 1) ∧
  decode 0b1000000000010100#16 = .ok (.addCarry 0 1) ∧
  decode 0b0101000100100001#16 = .error (.unimplemented 0x5121#16) ∧
  decode 0b1000000000000101#16 = .error (.unimplemented 0x8005#16)

/-! ## Fetch and step -/

/-- R45: on a running machine, when the two bytes at `pc` form the word of an instruction, the step is that instruction executed
on the state whose `pc` is advanced by 2, and nothing else. -/
def Obligations.StepRunsTheDecodedInstruction : Prop :=
  ∀ (s : State) (hi lo : Byte) (i : Instr), s.status = .running → memRead s.mem s.pc.toNat = .ok hi →
    memRead s.mem (s.pc.toNat + 1) = .ok lo → decode (wordOfBytes hi lo) = .ok i →
    step s = exec i (s.setPc (s.pc + 2#16))

/-- R32: the byte at `pc` is the high byte of the fetched word, the byte at `pc + 1` the low byte; the loader lays an opcode out
the same way, in two consecutive bytes, and leaves every other byte as it is. -/
def Obligations.FetchAndLoaderAreBigEndian : Prop :=
  (∀ (s : State) (hi lo : Byte), memRead s.mem s.pc.toNat = .ok hi → memRead s.mem (s.pc.toNat + 1) = .ok lo →
    ∃ op : Word, fetchWord s = .ok op ∧ op.toNat = hi.toNat * 256 + lo.toNat) ∧
  (∀ (m : Memory) (a : Nat) (op : Word), Memory.wf m = true → a + 1 ≤ 4095 → ∃ hi lo : Byte,
    memRead (Memory.placeWord m a op) a = .ok hi ∧ memRead (Memory.placeWord m a op) (a + 1) = .ok lo ∧
    op.toNat = hi.toNat * 256 + lo.toNat ∧
    ∀ k : Nat, k ≠ a → k ≠ a + 1 → memRead (Memory.placeWord m a op) k = memRead m k)

/-- R45, R72, R73: a fetch outside memory faults with the first address above 4095 that is read and changes nothing else, `pc`
staying at A. The recorded address and the kept `pc` are decisions D3 and D4 (log 3, log 4). -/
def Obligations.FetchOutsideMemoryFaults : Prop :=
  ∀ s : State, s.status = .running →
    (4095 < s.pc.toNat → step s = .next (s.setStatus (.faulted (.outOfBounds s.pc.toNat)))) ∧
    (s.pc.toNat = 4095 → step s = .next (s.setStatus (.faulted (.outOfBounds 4096))))

/-- R45, R48, R73: a fetched word that no row of the opcode map selects faults with that word, `pc` at A + 2 and nothing else
changed. The `pc` is decision D4 (log 4). -/
def Obligations.UnimplementedWordFaults : Prop :=
  ∀ (s : State) (op : Word), s.status = .running → fetchWord s = .ok op → wellFormedWord op = false →
    step s = .next ((s.setPc (s.pc + 2#16)).setStatus (.faulted (.unimplementedOpcode op)))

/-! ## System and control transfer -/

/-- R52: HALT stops the run and changes nothing but the status. That `pc` stays at A + 2 is decision D5 (log 5). -/
def Obligations.HaltStopsTheRun : Prop :=
  decode 0x0000#16 = .ok .halt ∧
  ∀ s : State, ∃ t : State, exec .halt s = .next t ∧ t.status = .halted ∧ s.onlyStatus t

/-- R53: CLEAR changes nothing but the fetch advance. -/
def Obligations.ClearChangesNothing : Prop :=
  decode 0x00E0#16 = .ok .clear ∧
  (∀ s : State, ∃ t : State, exec .clear s = .next t ∧ s.onlyRegs [] t) ∧
  (∀ s : State, s.status = .running → fetchWord s = .ok 0x00E0#16 → step s = .next (s.setPc (s.pc + 2#16)))

/-- R54: RETURN on a stack that is not empty decrements `sp` and loads `pc` from the entry there. That no entry changes is
decision D7 (log 7). -/
def Obligations.ReturnPopsTheTopEntry : Prop :=
  decode 0x00EE#16 = .ok .ret ∧
  ∀ (s : State) (j : Fin 16), j.val + 1 = s.sp.val → ∃ t : State, exec .ret s = .next t ∧
    t.sp.val = j.val ∧ t.pc = s.stackAt j ∧
    s.regsSameBut [] t ∧ s.entriesSame t ∧ t.status = s.status ∧ s.memSame t

/-- R54, R72, R73: RETURN on an empty stack faults with StackUnderflow and changes nothing but the status. That `pc` is A + 2 is
decision D4 (log 4). -/
def Obligations.ReturnOnEmptyStackFaults : Prop :=
  ∀ s : State, s.sp = 0 → ∃ t : State, exec .ret s = .next t ∧ t.status = .faulted .stackUnderflow ∧ s.onlyStatus t

/-- R55: JUMP loads `pc` with the 12-bit address, unchecked, and changes nothing else. -/
def Obligations.JumpLoadsTheAddress : Prop :=
  (∀ op : Word, op &&& 0xF000#16 = 0x1000#16 → decode op = .ok (.jump (nnnOf op))) ∧
  ∀ (nnn : Addr12) (s : State), ∃ t : State, exec (.jump nnn) s = .next t ∧ t.pc.toNat = nnn.toNat ∧ s.onlyPc t

/-- R56: CALL on a stack that is not full writes the return address (the advanced `pc`) at `sp`, increments `sp` and jumps; every
other entry stays. -/
def Obligations.CallPushesTheReturnAddress : Prop :=
  (∀ op : Word, op &&& 0xF000#16 = 0x2000#16 → decode op = .ok (.call (nnnOf op))) ∧
  ∀ (nnn : Addr12) (s : State), s.sp.val < 16 → ∃ t : State, exec (.call nnn) s = .next t ∧
    t.sp.val = s.sp.val + 1 ∧ t.pc.toNat = nnn.toNat ∧
    (∀ j : Fin 16, t.stackAt j = if j.val = s.sp.val then s.pc else s.stackAt j) ∧
    s.regsSameBut [] t ∧ t.status = s.status ∧ s.memSame t

/-- R56, R72, R73: CALL on a full stack faults with StackOverflow and changes nothing but the status. That `pc` is A + 2 is
decision D4 (log 4). -/
def Obligations.CallOnFullStackFaults : Prop :=
  ∀ (nnn : Addr12) (s : State), s.sp.val = 16 →
    ∃ t : State, exec (.call nnn) s = .next t ∧ t.status = .faulted .stackOverflow ∧ s.onlyStatus t

/-- L1-2: whatever runs between a CALL that does not fault and a RETURN, if it leaves `sp` and the stack as the CALL left them, the
RETURN resumes after the call site with the `sp` of before the CALL. -/
def Obligations.CallThenReturnRestoresPcAndSp : Prop :=
  ∀ (nnn : Addr12) (s : State), s.sp.val < 16 → ∃ t : State, exec (.call nnn) s = .next t ∧
    ∀ t' : State, t'.sp = t.sp → t.entriesSame t' →
      ∃ u : State, exec .ret t' = .next u ∧ u.pc = s.pc ∧ u.sp = s.sp

/-- L1-5: from an empty stack, up to sixteen nested CALLs succeed and the seventeenth faults with StackOverflow. -/
def Obligations.NestedCallsFillTheStackThenFault : Prop :=
  ∀ (s : State) (targets : List Addr12), s.status = .running → s.sp = 0 →
    (targets.length ≤ 16 → ∃ t : State, execAll (targets.map .call) s = .next t ∧ t.status = .running ∧
      t.sp.val = targets.length) ∧
    (17 ≤ targets.length → ∃ t : State, execAll (targets.map .call) s = .next t ∧
      t.status = .faulted .stackOverflow ∧ t.sp.val = 16)

/-! ## Skips -/

/-- R58: SKIP-EQ-IMM adds 2 to `pc` exactly when `V[x] = kk` and changes nothing else. -/
def Obligations.SkipEqImmSkipsOnEqual : Prop :=
  (∀ op : Word, op &&& 0xF000#16 = 0x3000#16 → decode op = .ok (.skipEqImm (xOf op) (kkOf op))) ∧
  ∀ (x : RegIdx) (kk : Byte) (s : State), ∃ t : State, exec (.skipEqImm x kk) s = .next t ∧
    t.pc = (if s.reg x = kk then s.pc + 2#16 else s.pc) ∧ s.onlyPc t

/-- R59: SKIP-NE-IMM adds 2 to `pc` exactly when `V[x] ≠ kk` and changes nothing else; of it and SKIP-EQ-IMM with the same fields,
exactly one skips. -/
def Obligations.SkipNeImmSkipsOnUnequal : Prop :=
  (∀ op : Word, op &&& 0xF000#16 = 0x4000#16 → decode op = .ok (.skipNeImm (xOf op) (kkOf op))) ∧
  ∀ (x : RegIdx) (kk : Byte) (s : State), ∃ t u : State, exec (.skipNeImm x kk) s = .next t ∧
    t.pc = (if s.reg x ≠ kk then s.pc + 2#16 else s.pc) ∧ s.onlyPc t ∧
    exec (.skipEqImm x kk) s = .next u ∧ (u.pc = s.pc ↔ t.pc ≠ s.pc)

/-- R60: SKIP-EQ-REG adds 2 to `pc` exactly when `V[x] = V[y]` and changes nothing else; a low nibble other than 0 is
unimplemented. -/
def Obligations.SkipEqRegSkipsOnEqual : Prop :=
  (∀ op : Word, op &&& 0xF00F#16 = 0x5000#16 → decode op = .ok (.skipEqReg (xOf op) (yOf op))) ∧
  (∀ op : Word, op &&& 0xF000#16 = 0x5000#16 → op &&& 0x000F#16 ≠ 0x0000#16 → decode op = .error (.unimplemented op)) ∧
  ∀ (x y : RegIdx) (s : State), ∃ t : State, exec (.skipEqReg x y) s = .next t ∧
    t.pc = (if s.reg x = s.reg y then s.pc + 2#16 else s.pc) ∧ s.onlyPc t

/-- L1-1, R61: from its pre-fetch value A, `pc` advances by exactly 4 when a skip is taken and by exactly 2 when it is not, with no
wrap-around; nothing else changes. -/
def Obligations.SkipStepAdvancesTwoOrFour : Prop :=
  ∀ (s : State) (op : Word) (i : Instr) (taken : Bool), s.status = .running → fetchWord s = .ok op → decode op = .ok i →
    ((∃ x kk, i = .skipEqImm x kk ∧ (taken = true ↔ s.reg x = kk)) ∨
     (∃ x kk, i = .skipNeImm x kk ∧ (taken = true ↔ s.reg x ≠ kk)) ∨
     (∃ x y, i = .skipEqReg x y ∧ (taken = true ↔ s.reg x = s.reg y))) →
    ∃ t : State, step s = .next t ∧ t.pc.toNat = s.pc.toNat + (if taken then 4 else 2) ∧ s.onlyPc t

/-! ## Register-immediate and ALU -/

/-- R62: LOAD-IMM sets `V[x]` to `kk` and changes nothing else. -/
def Obligations.LoadImmSetsTheRegister : Prop :=
  (∀ op : Word, op &&& 0xF000#16 = 0x6000#16 → decode op = .ok (.loadImm (xOf op) (kkOf op))) ∧
  ∀ (x : RegIdx) (kk : Byte) (s : State), ∃ t : State, exec (.loadImm x kk) s = .next t ∧ t.reg x = kk ∧ s.onlyRegs [x] t

/-- R63: ADD-IMM adds `kk` to `V[x]` modulo 256 and changes nothing else; VF is not written unless it is `x`. -/
def Obligations.AddImmWrapsWithoutFlag : Prop :=
  (∀ op : Word, op &&& 0xF000#16 = 0x7000#16 → decode op = .ok (.addImm (xOf op) (kkOf op))) ∧
  ∀ (x : RegIdx) (kk : Byte) (s : State), ∃ t : State, exec (.addImm x kk) s = .next t ∧
    (t.reg x).toNat = ((s.reg x).toNat + kk.toNat) % 256 ∧ s.onlyRegs [x] t

/-- R65: LOAD-REG copies `V[y]` to `V[x]` and changes nothing else. -/
def Obligations.LoadRegCopiesTheRegister : Prop :=
  (∀ op : Word, op &&& 0xF00F#16 = 0x8000#16 → decode op = .ok (.loadReg (xOf op) (yOf op))) ∧
  ∀ (x y : RegIdx) (s : State), ∃ t : State, exec (.loadReg x y) s = .next t ∧ t.reg x = s.reg y ∧ s.onlyRegs [x] t

/-- R66: OR sets `V[x]` to the bitwise OR of the operands and changes nothing else; VF is not written unless it is `x`. -/
def Obligations.OrSetsTheRegisterOnly : Prop :=
  (∀ op : Word, op &&& 0xF00F#16 = 0x8001#16 → decode op = .ok (.orReg (xOf op) (yOf op))) ∧
  ∀ (x y : RegIdx) (s : State), ∃ t : State, exec (.orReg x y) s = .next t ∧
    t.reg x = s.reg x ||| s.reg y ∧ s.onlyRegs [x] t

/-- R67: AND sets `V[x]` to the bitwise AND of the operands and changes nothing else; VF is not written unless it is `x`. -/
def Obligations.AndSetsTheRegisterOnly : Prop :=
  (∀ op : Word, op &&& 0xF00F#16 = 0x8002#16 → decode op = .ok (.andReg (xOf op) (yOf op))) ∧
  ∀ (x y : RegIdx) (s : State), ∃ t : State, exec (.andReg x y) s = .next t ∧
    t.reg x = s.reg x &&& s.reg y ∧ s.onlyRegs [x] t

/-- R68: XOR sets `V[x]` to the bitwise XOR of the operands and changes nothing else; VF is not written unless it is `x`. -/
def Obligations.XorSetsTheRegisterOnly : Prop :=
  (∀ op : Word, op &&& 0xF00F#16 = 0x8003#16 → decode op = .ok (.xorReg (xOf op) (yOf op))) ∧
  ∀ (x y : RegIdx) (s : State), ∃ t : State, exec (.xorReg x y) s = .next t ∧
    t.reg x = s.reg x ^^^ s.reg y ∧ s.onlyRegs [x] t

/-- R69: ADD-CARRY sets `V[x]` to the sum modulo 256 and VF, always, to the unsigned carry, and changes nothing else. With `x = 0xF`
VF holds the carry and the sum is lost: decision D6 (log 6). -/
def Obligations.AddCarrySetsSumAndCarry : Prop :=
  (∀ op : Word, op &&& 0xF00F#16 = 0x8004#16 → decode op = .ok (.addCarry (xOf op) (yOf op))) ∧
  ∀ (x y : RegIdx) (s : State), ∃ t : State, exec (.addCarry x y) s = .next t ∧
    t.reg 15 = (if (s.reg x).toNat + (s.reg y).toNat > 255 then 0x01#8 else 0x00#8) ∧
    (x ≠ 15 → (t.reg x).toNat = ((s.reg x).toNat + (s.reg y).toNat) % 256) ∧ s.onlyRegs [x, 15] t

/-- R70, L1-3: with `x` another register than VF, carry and sum together are the exact sum of the operands, the old VF included
when it is `y`. -/
def Obligations.AddCarrySumIsExact : Prop :=
  ∀ (x y : RegIdx) (s t : State), x ≠ 15 → exec (.addCarry x y) s = .next t →
    (t.reg 15).toNat * 256 + (t.reg x).toNat = (s.reg x).toNat + (s.reg y).toNat

/-- L1-4: OR and AND of a register with itself change nothing at all, and XOR of a register with itself clears it. -/
def Obligations.BitwiseOnOneRegister : Prop :=
  ∀ (x : RegIdx) (s : State),
    exec (.orReg x x) s = .next s ∧ exec (.andReg x x) s = .next s ∧
    ∃ t : State, exec (.xorReg x x) s = .next t ∧ t.reg x = 0x00#8

/-! ## Rules over all instructions -/

/-- R15: VF changes only by ADD-CARRY, or by an instruction that names it as its destination register. -/
def Obligations.OnlyAddCarryWritesVfUnasked : Prop :=
  ∀ (i : Instr) (s t : State), exec i s = .next t → t.reg 15 ≠ s.reg 15 →
    (∃ x y, i = .addCarry x y) ∨ (∃ kk, i = .loadImm 15 kk) ∨ (∃ kk, i = .addImm 15 kk) ∨ (∃ y, i = .loadReg 15 y) ∨
    (∃ y, i = .orReg 15 y) ∨ (∃ y, i = .andReg 15 y) ∨ (∃ y, i = .xorReg 15 y)

/-- R16, write column: an instruction changes no general register outside its write set. -/
def Obligations.RegistersOutsideWriteSetUnchanged : Prop :=
  ∀ (i : Instr) (s t : State), exec i s = .next t → s.regsSameBut i.writeSet t

/-- R16, read column: two states that differ only in general registers outside an instruction's read set take the same values in
its write set, and the same program counter, stack, stack pointer, status and memory. -/
def Obligations.EffectDependsOnlyOnReadSet : Prop :=
  ∀ (i : Instr) (s t : State) (v' : Vector Byte 16), (∀ k ∈ i.readSet, v'[k] = s.reg k) → exec i s = .next t →
    ∃ t' : State, exec i { s with v := v' } = .next t' ∧ (∀ k ∈ i.writeSet, t'.reg k = t.reg k) ∧
      t'.pc = t.pc ∧ t'.stack = t.stack ∧ t'.sp = t.sp ∧ t'.status = t.status ∧ t'.mem = t.mem

/-- R22, R23: only CALL writes the return stack, and only CALL and RETURN move the stack pointer, by one entry. For RETURN the first
clause says that the popped entry, no longer live, is left as it is: decision D7 (log 7), not the source's words. -/
def Obligations.OnlyCallWritesTheReturnStack : Prop :=
  ∀ (i : Instr) (s t : State), exec i s = .next t →
    ((∀ nnn, i ≠ .call nnn) → s.entriesSame t) ∧
    (t.sp = s.sp ∨ (t.sp.val = s.sp.val + 1 ∧ ∃ nnn, i = .call nnn) ∨ (t.sp.val + 1 = s.sp.val ∧ i = .ret))

/-- R22: only RETURN reads the return stack: for every other instruction, whatever the entries hold, the rest of the next state is
the same. -/
def Obligations.OnlyReturnReadsTheReturnStack : Prop :=
  ∀ (i : Instr) (s t : State) (w : Vector Word 16), i ≠ .ret → exec i s = .next t →
    ∃ t' : State, exec i { s with stack := w } = .next t' ∧
      t'.v = t.v ∧ t'.pc = t.pc ∧ t'.sp = t.sp ∧ t'.status = t.status ∧ t'.mem = t.mem

/-- R33, R40: no step changes memory, so memory is constant for the whole run. -/
def Obligations.MemoryIsConstantDuringARun : Prop :=
  (∀ s t : State, step s = .next t → t.mem = s.mem) ∧
  (∀ (n : Nat) (s t : State), run n s = .ended t ∨ run n s = .notEnded t → t.mem = s.mem)

/-- R31, R50: the only memory a step reads is the two bytes at `pc` and `pc + 1`: with any other memory that reads the same there,
the step answers the same. In particular a skipped word is not read (R61). -/
def Obligations.StepReadsOnlyTheTwoFetchedBytes : Prop :=
  ∀ (s : State) (m : Memory), memRead m s.pc.toNat = memRead s.mem s.pc.toNat →
    memRead m (s.pc.toNat + 1) = memRead s.mem (s.pc.toNat + 1) →
    (∀ t : State, step s = .next t → step (s.setMem m) = .next (t.setMem m)) ∧
    (∀ r : Fault, step s = .fault r → step (s.setMem m) = .fault r)

/-- R20: the program counter after a step that runs an instruction at A: the address of a JUMP or of a CALL that does not fault, the
popped entry of a RETURN that does not fault, and A + 2, exactly, after HALT, CLEAR and every instruction that writes a register.
(The skips are `SkipStepAdvancesTwoOrFour`.) HALT's is decision D5 (log 5). -/
def Obligations.ProgramCounterAfterAStep : Prop :=
  ∀ (s t : State) (op : Word) (i : Instr), fetchWord s = .ok op → decode op = .ok i → step s = .next t →
    (∀ nnn, i = .jump nnn → t.pc.toNat = nnn.toNat) ∧
    (∀ nnn, i = .call nnn → s.sp.val < 16 → t.pc.toNat = nnn.toNat) ∧
    (∀ j : Fin 16, i = .ret → j.val + 1 = s.sp.val → t.pc = s.stackAt j) ∧
    ((i = .halt ∨ i = .clear ∨ i.writeSet ≠ []) → t.pc.toNat = s.pc.toNat + 2)

/-! ## Status and failures -/

/-- R24, R52: a step ends with the status Halted exactly when the fetched word is 0x0000. -/
def Obligations.HaltedExactlyByTheHaltWord : Prop :=
  ∀ s t : State, step s = .next t → (t.status = .halted ↔ fetchWord s = .ok 0x0000#16)

/-- R72, R74, R75: the four failure conditions, each exactly when its condition holds and with the info it records; no step fails
otherwise. The address of the out-of-bounds failure is decision D3 (log 3), the status that records the failure D8 (log 8). -/
def Obligations.FailureCausesAreExact : Prop :=
  ∀ s t : State, step s = .next t → ∀ f : Failure, t.status = .faulted f ↔
    ((4095 < s.pc.toNat ∧ f = .outOfBounds s.pc.toNat) ∨ (s.pc.toNat = 4095 ∧ f = .outOfBounds 4096) ∨
     ∃ op : Word, fetchWord s = .ok op ∧
       ((wellFormedWord op = false ∧ f = .unimplementedOpcode op) ∨
        (op &&& 0xF000#16 = 0x2000#16 ∧ s.sp.val = 16 ∧ f = .stackOverflow) ∨
        (op = 0x00EE#16 ∧ s.sp.val = 0 ∧ f = .stackUnderflow)))

/-- R73: a failing step changes no register, no stack entry, no stack pointer and no memory; `pc` is A after a failed fetch and A + 2
after any other failure: decision D4 (log 4). -/
def Obligations.FailingStepKeepsEverythingElse : Prop :=
  ∀ (s t : State) (f : Failure), step s = .next t → t.status = .faulted f →
    s.regsSameBut [] t ∧ s.entriesSame t ∧ t.sp = s.sp ∧ s.memSame t ∧
    ((∃ a, f = .outOfBounds a) → t.pc = s.pc) ∧ ((∀ a, f ≠ .outOfBounds a) → t.pc.toNat = s.pc.toNat + 2)

/-- R24, R46, R78: a running machine always takes a step; no fetched word and no instruction is refused. -/
def Obligations.RunningMachineAlwaysSteps : Prop :=
  ∀ s : State, s.status = .running → ∃ t : State, step s = .next t

/-- R24, R77, R81: a halted or faulted machine takes no step; nothing clears the status. The named answers are the model's (log 9). -/
def Obligations.StoppedMachineTakesNoStep : Prop :=
  ∀ s : State, (s.status = .halted → step s = .fault .alreadyHalted) ∧
    ∀ f : Failure, s.status = .faulted f → step s = .fault (.alreadyFaulted f)

/-! ## Memory -/

/-- R30, R33: a written byte is read back and every other byte stays; outside 0..4095 the write raises OutOfBounds. No instruction
writes: this is the host's load. -/
def Obligations.WrittenByteIsReadBack : Prop :=
  ∀ (m : Memory) (a : Nat) (b : Byte), Memory.wf m = true →
    (a ≤ 4095 → ∃ m' : Memory, memWrite m a b = .ok m' ∧
      ∀ k : Nat, memRead m' k = if k = a then .ok b else memRead m k) ∧
    (4095 < a → memWrite m a b = .error (.outOfBounds a) ∧ memRead m a = .error (.outOfBounds a))

/-- The model's form of memory is canonical: two memories in it that read alike are equal data (log 13). -/
def Obligations.EqualReadsMeanEqualMemories : Prop :=
  ∀ m m' : Memory, Memory.wf m = true → Memory.wf m' = true → (∀ a : Nat, memRead m a = memRead m' a) → m = m'

/-- The word `withFetchWord` places is the word the next step fetches, and the machine is running (log 11). -/
def Obligations.PlacedWordIsFetchedNext : Prop :=
  ∀ (s : State) (op : Word), Memory.wf s.mem = true →
    fetchWord (s.withFetchWord 16 op.toNat) = .ok op ∧ (s.withFetchWord 16 op.toNat).status = .running

/-! ## The host -/

/-- R28, R85: a launch is refused exactly when `sp > 16`: decision D9 (log 10). -/
def Obligations.LaunchRefusedExactlyAboveSixteen : Prop :=
  ∀ l : Launch, (16 < l.sp → launch l = .refused (.stackPointerOutOfRange l.sp)) ∧
    (l.sp ≤ 16 → ∃ t : State, launch l = .next t)

/-- R17, R84: an admitted launch is the machine with exactly the values the host loads, Running: each byte of memory is the last one
loaded at its address, and zero where none was. -/
def Obligations.LaunchLoadsTheGivenValues : Prop :=
  ∀ l : Launch, l.sp ≤ 16 → ∃ t : State, launch l = .next t ∧
    t.v = l.v ∧ t.pc = l.pc ∧ t.stack = l.stack ∧ t.sp.val = l.sp ∧ t.status = .running ∧
    (∀ a : Fin 4096, (∀ p ∈ l.mem, p.1 ≠ a) → memRead t.mem a.val = .ok 0x00#8) ∧
    (∀ (before after : List (Fin 4096 × Byte)) (a : Fin 4096) (b : Byte), l.mem = before ++ (a, b) :: after →
      (∀ p ∈ after, p.1 ≠ a) → memRead t.mem a.val = .ok b)

/-- Running a machine again as a new launch with its state: everything is as the earlier run left it, and the status is Running. The
source says nothing of another run and the spec calls it outside itself; that a new launch stands for it is decision D14, and the
launch that carries the state is the model's (log 12, DEDUCED). -/
def Obligations.RelaunchKeepsTheState : Prop :=
  ∀ s : State, Memory.wf s.mem = true → launch (Launch.ofState s) = .next (s.setStatus .running)

/-- R82: a run bounded by fuel reports "ended" only of a stopped machine and "not ended" only of a running one, and more fuel does not
change an end. -/
def Obligations.RunReportsHowItEnded : Prop :=
  ∀ (n : Nat) (s t : State),
    (run n s = .notEnded t → t.status = .running) ∧
    (run n s = .ended t → t.status ≠ .running ∧ ∀ k : Nat, run (n + k) s = .ended t)

/-- R55, R82: a JUMP to its own address never ends and changes nothing, however long the run. -/
def Obligations.JumpToItselfNeverEnds : Prop :=
  ∀ (s : State) (op : Word) (nnn : Addr12), s.status = .running → fetchWord s = .ok op → decode op = .ok (.jump nnn) →
    s.pc.toNat = nnn.toNat → ∀ n : Nat, run n s = .notEnded s

/-- R17, R29, R72: the host learns of the end by the completion report, with the cause's code and info (decision D8, log 8), and
inspects the state only after the stop. -/
def Obligations.CompletionReportsCodeAndInfo : Prop :=
  ∀ s : State,
    (s.status = .running → s.completion = none ∧ ∀ it : Item, s.inspect it = none) ∧
    (s.status ≠ .running → s.completion ≠ none ∧ ∀ it : Item, s.inspect it = some (s.item it)) ∧
    (s.status = .halted → s.completion = some .halted) ∧
    (∀ op, s.status = .faulted (.unimplementedOpcode op) → s.completion = some (.faulted 1 (.opcode op))) ∧
    (s.status = .faulted .stackOverflow → s.completion = some (.faulted 2 (.direction .overflow))) ∧
    (s.status = .faulted .stackUnderflow → s.completion = some (.faulted 3 (.direction .underflow))) ∧
    (∀ a, s.status = .faulted (.outOfBounds a) → s.completion = some (.faulted 4 (.address a)))
end

