-- ==== Sys2Proof/Laws/Decode.lean ====
section
/-! SUPPORT. Words as numbers: the fields of a word (spec/30_encoding.md R42), the fields of the encoded formats (R43), and what
the opcode map's masks select. -/

namespace Sys2Proof

@[simp] theorem regOfField_fieldOfReg (x : RegIdx) : regOfField (fieldOfReg x) = x := rfl
@[simp] theorem fieldOfReg_regOfField (f : BitVec 4) : fieldOfReg (regOfField f) = f := rfl

/-- A concatenation as a number. -/
theorem append_toNat {v w : Nat} (a : BitVec v) (b : BitVec w) : (a ++ b).toNat = a.toNat * 2 ^ w + b.toNat := by
  rw [BitVec.toNat_append, ← Nat.shiftLeft_add_eq_or_of_lt b.isLt, Nat.shiftLeft_eq]

section
variable (h n : BitVec 4) (nnn : Addr12) (x y : RegIdx) (kk hi lo : Byte)

theorem wordOfBytes_toNat : (wordOfBytes hi lo).toNat = hi.toNat * 256 + lo.toNat := append_toNat hi lo

theorem fieldOfReg_toNat : (fieldOfReg x).toNat = x.val := rfl

theorem formatNNN_toNat : (formatNNN h nnn).toNat = h.toNat * 4096 + nnn.toNat := append_toNat h nnn

theorem formatXKK_toNat : (formatXKK h x kk).toNat = h.toNat * 4096 + (x.val * 256 + kk.toNat) :=
  (append_toNat h (fieldOfReg x ++ kk)).trans (by rw [append_toNat (fieldOfReg x) kk, fieldOfReg_toNat]; norm_num)

theorem formatXYN_toNat :
    (formatXYN h x y n).toNat = h.toNat * 4096 + (x.val * 256 + (y.val * 16 + n.toNat)) :=
  (append_toNat h (fieldOfReg x ++ (fieldOfReg y ++ n))).trans (by
    rw [append_toNat (fieldOfReg x) (fieldOfReg y ++ n), append_toNat (fieldOfReg y) n, fieldOfReg_toNat, fieldOfReg_toNat]
    norm_num)

end

section
variable (op : Word)

theorem majorOf_toNat : (majorOf op).toNat = op.toNat / 4096 := by
  have := op.isLt
  simp [majorOf, Nat.shiftRight_eq_div_pow]; omega

theorem subOf_toNat : (subOf op).toNat = op.toNat % 16 := by
  simp [subOf]

theorem xOf_val : (xOf op).val = op.toNat / 256 % 16 := by
  simp [xOf, regOfField, Nat.shiftRight_eq_div_pow]

theorem yOf_val : (yOf op).val = op.toNat / 16 % 16 := by
  simp [yOf, regOfField, Nat.shiftRight_eq_div_pow]

theorem kkOf_toNat : (kkOf op).toNat = op.toNat % 256 := by
  simp [kkOf]

theorem nnnOf_toNat : (nnnOf op).toNat = op.toNat % 4096 := by
  simp [nnnOf]

/-- The mask of a row with a major opcode only keeps that nibble. -/
theorem and_F000_toNat : (op &&& 0xF000#16).toNat = op.toNat / 4096 * 4096 := by
  have hop := op.isLt
  rw [BitVec.toNat_and]
  refine Nat.eq_of_testBit_eq fun i => ?_
  rw [Nat.testBit_and, show (0xF000#16).toNat = (2 ^ 4 - 1) * 2 ^ 12 from rfl, show (4096 : Nat) = 2 ^ 12 from rfl,
    Nat.testBit_mul_two_pow, Nat.testBit_mul_two_pow, Nat.testBit_two_pow_sub_one, Nat.testBit_div_two_pow]
  by_cases h12 : 12 ≤ i
  · by_cases h4 : i - 12 < 4
    · simp [h12, h4]
    · have : op.toNat.testBit i = false :=
        Nat.testBit_lt_two_pow (lt_of_lt_of_le hop (Nat.pow_le_pow_right (by omega) (by omega)))
      simp [h12, this]
  · simp [h12]

/-- The mask of a row with a sub-opcode keeps the first and the last nibble. -/
theorem and_F00F_toNat : (op &&& 0xF00F#16).toNat = op.toNat / 4096 * 4096 + op.toNat % 16 := by
  have h1 : (op &&& 0xF00F#16).toNat = (op &&& 0xF000#16).toNat ||| op.toNat % 16 := by
    rw [← Nat.and_two_pow_sub_one_eq_mod op.toNat 4, BitVec.toNat_and, BitVec.toNat_and, ← Nat.and_or_distrib_left]
    rfl
  rw [h1, and_F000_toNat, show (4096 : Nat) = 2 ^ 12 from rfl, ← Nat.shiftLeft_eq,
    ← Nat.shiftLeft_add_eq_or_of_lt (by omega)]

/-- A word in a row that fixes the major opcode only has that major opcode. -/
theorem majorOf_of_mask {p : Word} (h : op &&& 0xF000#16 = p) : (majorOf op).toNat = p.toNat / 4096 := by
  have e := and_F000_toNat op
  rw [h] at e
  rw [majorOf_toNat]; omega

/-- A word in a row that also fixes the sub-opcode has that major opcode and that sub-opcode. -/
theorem majorOf_subOf_of_mask {p : Word} (h : op &&& 0xF00F#16 = p) :
    (majorOf op).toNat = p.toNat / 4096 ∧ (subOf op).toNat = p.toNat % 16 := by
  have e := and_F00F_toNat op
  rw [h] at e
  rw [majorOf_toNat, subOf_toNat]; omega

/-- A word as the number its two bytes make. -/
theorem toNat_bytes : op.toNat = (highByte op).toNat * 256 + (lowByte op).toNat := by
  have := op.isLt
  simp [highByte, lowByte, Nat.shiftRight_eq_div_pow]; omega

/-- A word is put together again from its bytes. -/
theorem wordOfBytes_bytes : wordOfBytes (highByte op) (lowByte op) = op := by
  apply BitVec.eq_of_toNat_eq
  rw [wordOfBytes_toNat, ← toNat_bytes]

end

/-- A word the decoder rejects is rejected as unimplemented (R48). -/
theorem decode_error {op : Word} {r : DecodeReject} (h : decode op = .error r) : r = .unimplemented op := by
  unfold decode decodeFixed decodeAlu at h
  split at h <;> (try split_ifs at h) <;> (try split at h) <;> cases h <;> rfl

end Sys2Proof
end

