-- ==== Sys2Proof/Laws/Memory.lean ====
section
/-! SUPPORT. Every memory operation keeps the canonical form of memory, and when a read or a write succeeds. -/

namespace Sys2Proof.Machine

theorem memSize_eq : Config.memSize = 4096 := rfl

/-- A list of cells in canonical form from `lo` is one from any lower bound. -/
theorem wfFrom_mono {lo lo' : Nat} {m : Memory} (h : Memory.wfFrom lo m = true) (hle : lo' ≤ lo) :
    Memory.wfFrom lo' m = true := by
  cases m with
  | nil => rfl
  | cons c rest =>
    simp only [Memory.wfFrom, Bool.and_eq_true, decide_eq_true_eq] at h ⊢
    exact ⟨⟨⟨le_trans hle h.1.1.1, h.1.1.2⟩, h.1.2⟩, h.2⟩

/-- Writing a byte keeps the canonical form. -/
theorem setByte_keeps_wfFrom {lo a : Nat} {m : Memory} (b : Byte) (h : Memory.wfFrom lo m = true) (hlo : lo ≤ a)
    (ha : a < Config.memSize) : Memory.wfFrom lo (Memory.setByte m a b) = true := by
  induction m generalizing lo with
  | nil =>
    by_cases hb : b = Memory.unlisted <;> simp [Memory.setByte, Memory.wfFrom, hb, hlo, ha]
  | cons c rest ih =>
    obtain ⟨k, c⟩ := c
    simp only [Memory.wfFrom, Bool.and_eq_true, decide_eq_true_eq] at h
    obtain ⟨⟨⟨h1, h2⟩, h3⟩, h4⟩ := h
    simp only [Memory.setByte]
    split_ifs with hak hb hab hb
    · simp [Memory.wfFrom, h1, h2, h3, h4]
    · simp [Memory.wfFrom, hlo, ha, hb, h2, h3, h4, Nat.succ_le_of_lt hak]
    · exact wfFrom_mono h4 (by omega)
    · subst hab
      simp [Memory.wfFrom, hlo, ha, hb, h4]
    · simp [Memory.wfFrom, h1, h2, h3, ih h4 (by omega)]

/-- Below the first address a canonical list may hold, every byte reads as unlisted. -/
theorem byteAt_below {lo k : Nat} {m : Memory} (h : Memory.wfFrom lo m = true) (hk : k < lo) :
    Memory.byteAt m k = Memory.unlisted := by
  induction m generalizing lo with
  | nil => rfl
  | cons c rest ih =>
    obtain ⟨q, c⟩ := c
    simp only [Memory.wfFrom, Bool.and_eq_true, decide_eq_true_eq] at h
    simp only [Memory.byteAt]
    rw [if_neg (by omega)]
    exact ih h.2 (by omega)

/-- Every byte of a canonical list after one byte is put. -/
theorem byteAt_setByte {lo a : Nat} {m : Memory} {b : Byte} (h : Memory.wfFrom lo m = true) (k : Nat) :
    Memory.byteAt (Memory.setByte m a b) k = if k = a then b else Memory.byteAt m k := by
  induction m generalizing lo with
  | nil => by_cases hb : b = Memory.unlisted <;> simp [Memory.setByte, Memory.byteAt, hb, eq_comm]
  | cons c rest ih =>
    obtain ⟨q, c⟩ := c
    simp only [Memory.wfFrom, Bool.and_eq_true, decide_eq_true_eq] at h
    have below : k < q + 1 → Memory.byteAt rest k = Memory.unlisted := byteAt_below h.2
    have ih' := ih h.2
    simp only [Memory.setByte]
    by_cases hka : k = a
    · subst hka
      split_ifs <;> (try simp only [Memory.byteAt]) <;> grind
    · split_ifs <;> (try simp only [Memory.byteAt]) <;> grind

theorem setByte_keeps_wf {m : Memory} {a : Nat} (b : Byte) (h : Memory.wf m = true) (ha : a < Config.memSize) :
    Memory.wf (Memory.setByte m a b) = true :=
  setByte_keeps_wfFrom b h (Nat.zero_le a) ha

theorem memWrite_keeps_wf {m m' : Memory} {a : Nat} {b : Byte} (h : Memory.wf m = true) (hw : memWrite m a b = .ok m') :
    Memory.wf m' = true := by
  unfold memWrite at hw
  split at hw
  · next ha => cases hw; exact setByte_keeps_wf b h ha
  · cases hw

theorem placeWord_keeps_wf {m : Memory} {a : Nat} (op : Word) (h : Memory.wf m = true) (ha : a + 1 < Config.memSize) :
    Memory.wf (Memory.placeWord m a op) = true :=
  setByte_keeps_wf _ (setByte_keeps_wf _ h (Nat.lt_of_succ_lt ha)) ha

theorem loadBytes_keeps_wf {m : Memory} (ls : List (Fin 4096 × Byte)) (h : Memory.wf m = true) :
    Memory.wf (loadBytes m ls) = true := by
  induction ls generalizing m with
  | nil => exact h
  | cons l rest ih => exact ih (setByte_keeps_wf _ h l.1.isLt)

theorem reset_mem_wf : Memory.wf State.reset.mem = true := rfl

/-- Everything a memory read can answer. -/
theorem memRead_ok_iff {m : Memory} {a : Nat} {b : Byte} :
    memRead m a = .ok b ↔ a < Config.memSize ∧ Memory.byteAt m a = b := by
  unfold memRead; split <;> simp_all

theorem memRead_error_iff {m : Memory} {a : Nat} {f : Failure} :
    memRead m a = .error f ↔ ¬ a < Config.memSize ∧ Failure.outOfBounds a = f := by
  unfold memRead; split <;> simp_all

end Sys2Proof.Machine
end

