-- ==== Sys2Proof/Laws/State.lean ====
section
/-! SUPPORT. One lemma per field per update of the state, true by unfolding, and the register and stack reads after a write. -/

namespace Sys2Proof.Machine

section
variable (s : State) (i : RegIdx) (b : Byte) (j : Fin 16) (w : Word) (n : Fin 17) (st : Status) (m : Memory)

@[simp] theorem setReg_mem : (s.setReg i b).mem = s.mem := rfl
@[simp] theorem setReg_pc : (s.setReg i b).pc = s.pc := rfl
@[simp] theorem setReg_stack : (s.setReg i b).stack = s.stack := rfl
@[simp] theorem setReg_sp : (s.setReg i b).sp = s.sp := rfl
@[simp] theorem setReg_status : (s.setReg i b).status = s.status := rfl
@[simp] theorem setReg_stackAt : (s.setReg i b).stackAt j = s.stackAt j := rfl

@[simp] theorem setStackAt_mem : (s.setStackAt j w).mem = s.mem := rfl
@[simp] theorem setStackAt_v : (s.setStackAt j w).v = s.v := rfl
@[simp] theorem setStackAt_pc : (s.setStackAt j w).pc = s.pc := rfl
@[simp] theorem setStackAt_sp : (s.setStackAt j w).sp = s.sp := rfl
@[simp] theorem setStackAt_status : (s.setStackAt j w).status = s.status := rfl
@[simp] theorem setStackAt_reg : (s.setStackAt j w).reg i = s.reg i := rfl

@[simp] theorem setPc_mem : (s.setPc w).mem = s.mem := rfl
@[simp] theorem setPc_v : (s.setPc w).v = s.v := rfl
@[simp] theorem setPc_pc : (s.setPc w).pc = w := rfl
@[simp] theorem setPc_stack : (s.setPc w).stack = s.stack := rfl
@[simp] theorem setPc_sp : (s.setPc w).sp = s.sp := rfl
@[simp] theorem setPc_status : (s.setPc w).status = s.status := rfl
@[simp] theorem setPc_reg : (s.setPc w).reg i = s.reg i := rfl
@[simp] theorem setPc_stackAt : (s.setPc w).stackAt j = s.stackAt j := rfl

@[simp] theorem setSp_mem : (s.setSp n).mem = s.mem := rfl
@[simp] theorem setSp_v : (s.setSp n).v = s.v := rfl
@[simp] theorem setSp_pc : (s.setSp n).pc = s.pc := rfl
@[simp] theorem setSp_stack : (s.setSp n).stack = s.stack := rfl
@[simp] theorem setSp_sp : (s.setSp n).sp = n := rfl
@[simp] theorem setSp_status : (s.setSp n).status = s.status := rfl
@[simp] theorem setSp_reg : (s.setSp n).reg i = s.reg i := rfl
@[simp] theorem setSp_stackAt : (s.setSp n).stackAt j = s.stackAt j := rfl

@[simp] theorem setStatus_mem : (s.setStatus st).mem = s.mem := rfl
@[simp] theorem setStatus_v : (s.setStatus st).v = s.v := rfl
@[simp] theorem setStatus_pc : (s.setStatus st).pc = s.pc := rfl
@[simp] theorem setStatus_stack : (s.setStatus st).stack = s.stack := rfl
@[simp] theorem setStatus_sp : (s.setStatus st).sp = s.sp := rfl
@[simp] theorem setStatus_status : (s.setStatus st).status = st := rfl
@[simp] theorem setStatus_reg : (s.setStatus st).reg i = s.reg i := rfl
@[simp] theorem setStatus_stackAt : (s.setStatus st).stackAt j = s.stackAt j := rfl

@[simp] theorem setMem_mem : (s.setMem m).mem = m := rfl
@[simp] theorem setMem_v : (s.setMem m).v = s.v := rfl
@[simp] theorem setMem_pc : (s.setMem m).pc = s.pc := rfl
@[simp] theorem setMem_stack : (s.setMem m).stack = s.stack := rfl
@[simp] theorem setMem_sp : (s.setMem m).sp = s.sp := rfl
@[simp] theorem setMem_status : (s.setMem m).status = s.status := rfl
@[simp] theorem setMem_reg : (s.setMem m).reg i = s.reg i := rfl
@[simp] theorem setMem_stackAt : (s.setMem m).stackAt j = s.stackAt j := rfl

@[simp] theorem advance_mem : (advance s).mem = s.mem := rfl
@[simp] theorem advance_v : (advance s).v = s.v := rfl
@[simp] theorem advance_pc : (advance s).pc = s.pc + 2#16 := rfl
@[simp] theorem advance_stack : (advance s).stack = s.stack := rfl
@[simp] theorem advance_sp : (advance s).sp = s.sp := rfl
@[simp] theorem advance_status : (advance s).status = s.status := rfl
@[simp] theorem advance_reg : (advance s).reg i = s.reg i := rfl
@[simp] theorem advance_stackAt : (advance s).stackAt j = s.stackAt j := rfl

end

/-- A register read after a register write. -/
theorem reg_setReg (s : State) (i k : RegIdx) (b : Byte) : (s.setReg i b).reg k = if k = i then b else s.reg k := by
  simp only [State.reg, State.setReg, Fin.getElem_fin, Vector.getElem_set]
  simp only [Fin.ext_iff, eq_comm]

/-- A stack entry read after a stack entry is written. -/
theorem stackAt_setStackAt (s : State) (j k : Fin 16) (w : Word) :
    (s.setStackAt j w).stackAt k = if k = j then w else s.stackAt k := by
  simp only [State.stackAt, State.setStackAt, Fin.getElem_fin, Vector.getElem_set]
  simp only [Fin.ext_iff, eq_comm]

end Sys2Proof.Machine
end

