-- ==== Sys2Proof/Laws/Ops.lean ====
section
/-! SUPPORT. For each shared operation, everything it can answer. -/

namespace Sys2Proof.Machine

/-- A push either fails on a full stack or writes the entry at `sp` and increments `sp`. -/
theorem push_cases (w : Word) (s : State) :
    (s.sp.val = 16 ∧ push w s = .error .stackOverflow) ∨
    ∃ (j : Fin 16) (n : Fin 17), j.val = s.sp.val ∧ n.val = s.sp.val + 1 ∧ push w s = .ok ((s.setStackAt j w).setSp n) := by
  by_cases h : s.sp.val < 16
  · exact .inr ⟨⟨s.sp.val, h⟩, ⟨s.sp.val + 1, by omega⟩, rfl, rfl, by simp [push, h]⟩
  · exact .inl ⟨by have := s.sp.isLt; omega, by simp [push, h]⟩

/-- A pop either fails on an empty stack or decrements `sp` and answers the entry there, writing no entry. -/
theorem pop_cases (s : State) :
    (s.sp.val = 0 ∧ pop s = .error .stackUnderflow) ∨
    ∃ (j : Fin 16) (n : Fin 17), j.val + 1 = s.sp.val ∧ n.val + 1 = s.sp.val ∧ pop s = .ok (s.stackAt j, s.setSp n) := by
  by_cases h : s.sp.val = 0
  · exact .inl ⟨h, by simp [pop, h]⟩
  · have := s.sp.isLt
    exact .inr ⟨⟨s.sp.val - 1, by omega⟩, ⟨s.sp.val - 1, by omega⟩, by simp; omega, by simp; omega, by simp [pop, h]⟩

/-- A skip takes the state as it is or advances it. -/
theorem skipIf_eq (c : Bool) (s : State) : skipIf c s = .next (if c then advance s else s) := rfl

theorem raiseFailure_eq (f : Failure) (s : State) : raiseFailure f s = .next (s.setStatus (.faulted f)) := rfl

/-- A RETURN either fails on an empty stack or pops. -/
theorem execReturn_cases (s : State) :
    (s.sp.val = 0 ∧ execReturn s = .next (s.setStatus (.faulted .stackUnderflow))) ∨
    ∃ (j : Fin 16) (n : Fin 17), j.val + 1 = s.sp.val ∧ n.val + 1 = s.sp.val ∧
      execReturn s = .next ((s.setSp n).setPc (s.stackAt j)) := by
  rcases pop_cases s with ⟨h, hp⟩ | ⟨j, n, hj, hn, hp⟩
  · exact .inl ⟨h, by simp [execReturn, hp, raiseFailure]⟩
  · exact .inr ⟨j, n, hj, hn, by simp [execReturn, hp]⟩

/-- A CALL either fails on a full stack or pushes `pc` and jumps. -/
theorem execCall_cases (nnn : Addr12) (s : State) :
    (s.sp.val = 16 ∧ execCall nnn s = .next (s.setStatus (.faulted .stackOverflow))) ∨
    ∃ (j : Fin 16) (n : Fin 17), j.val = s.sp.val ∧ n.val = s.sp.val + 1 ∧
      execCall nnn s = .next (((s.setStackAt j s.pc).setSp n).setPc (zext16 nnn)) := by
  rcases push_cases s.pc s with ⟨h, hp⟩ | ⟨j, n, hj, hn, hp⟩
  · exact .inl ⟨h, by simp [execCall, hp, raiseFailure]⟩
  · exact .inr ⟨j, n, hj, hn, by simp [execCall, hp]⟩

/-- Everything a fetch can answer, by the value of `pc`. -/
theorem fetchWord_cases (s : State) :
    (s.pc.toNat + 1 < 4096 ∧
      fetchWord s = .ok (wordOfBytes (Memory.byteAt s.mem s.pc.toNat) (Memory.byteAt s.mem (s.pc.toNat + 1)))) ∨
    (s.pc.toNat = 4095 ∧ fetchWord s = .error (.outOfBounds 4096)) ∨
    (4095 < s.pc.toNat ∧ fetchWord s = .error (.outOfBounds s.pc.toNat)) := by
  by_cases h1 : s.pc.toNat + 1 < 4096
  · exact .inl ⟨h1, by simp [fetchWord, memRead, memSize_eq, h1, show s.pc.toNat < 4096 by omega]⟩
  · by_cases h2 : s.pc.toNat < 4096
    · have h3 : s.pc.toNat = 4095 := by omega
      exact .inr (.inl ⟨h3, by simp [fetchWord, memRead, memSize_eq, h3]⟩)
    · exact .inr (.inr ⟨by omega, by simp [fetchWord, memRead, memSize_eq, h2]⟩)

theorem zext16_toNat (nnn : Addr12) : (zext16 nnn).toNat = nnn.toNat := by
  have := nnn.isLt
  simp [zext16]; omega

theorem add8_toNat (a b : Byte) : (add8 a b).toNat = (a.toNat + b.toNat) % 256 := by
  simp [add8]

end Sys2Proof.Machine
end

