-- ==== Sys2Proof/Laws/Exec.lean ====
section
/-! SUPPORT. What holds of every instruction: it answers a next state, keeps memory, and changes the status only where it halts or
fails. -/

namespace Sys2Proof.Machine

/-- Every instruction answers a next state: nothing in `exec` faults or refuses. -/
theorem exec_total (i : Instr) (s : State) : ∃ t : State, exec i s = .next t := by
  cases i
  case ret => rcases execReturn_cases s with ⟨_, e⟩ | ⟨_, _, _, _, e⟩ <;> exact ⟨_, e⟩
  case call n => rcases execCall_cases n s with ⟨_, e⟩ | ⟨_, _, _, _, e⟩ <;> exact ⟨_, e⟩
  all_goals exact ⟨_, rfl⟩

/-- No instruction writes memory (spec/20_memory.md R33). -/
theorem exec_keeps_mem {i : Instr} {s t : State} (h : exec i s = .next t) : t.mem = s.mem := by
  cases i <;> simp only [exec] at h
  case ret => rcases execReturn_cases s with ⟨_, e⟩ | ⟨_, _, _, _, e⟩ <;> rw [e] at h <;> cases h <;> rfl
  case call n => rcases execCall_cases n s with ⟨_, e⟩ | ⟨_, _, _, _, e⟩ <;> rw [e] at h <;> cases h <;> rfl
  all_goals first
    | (cases h; rfl)
    | (simp only [execSkipEqImm, execSkipNeImm, execSkipEqReg, skipIf_eq] at h; cases h; split <;> rfl)

/-- HALT halts, RETURN on an empty and CALL on a full stack fail, and nothing else touches the status (spec/60_exceptions.md R74). -/
theorem exec_status_cases {i : Instr} {s t : State} (h : exec i s = .next t) :
    (i = .halt ∧ t = s.setStatus .halted) ∨
    (i = .ret ∧ s.sp.val = 0 ∧ t = s.setStatus (.faulted .stackUnderflow)) ∨
    ((∃ n, i = .call n) ∧ s.sp.val = 16 ∧ t = s.setStatus (.faulted .stackOverflow)) ∨
    (t.status = s.status ∧ i ≠ .halt ∧ (i = .ret → s.sp.val ≠ 0) ∧ ((∃ n, i = .call n) → s.sp.val ≠ 16)) := by
  cases i <;> simp only [exec] at h
  case halt => cases h; exact .inl ⟨rfl, rfl⟩
  case ret =>
    rcases execReturn_cases s with ⟨h0, e⟩ | ⟨j, n, hj, hn, e⟩ <;> rw [e] at h <;> cases h
    · exact .inr (.inl ⟨rfl, h0, rfl⟩)
    · exact .inr (.inr (.inr ⟨rfl, by simp, fun _ => by omega, by simp⟩))
  case call nnn =>
    rcases execCall_cases nnn s with ⟨h0, e⟩ | ⟨j, n, hj, hn, e⟩ <;> rw [e] at h <;> cases h
    · exact .inr (.inr (.inl ⟨⟨_, rfl⟩, h0, rfl⟩))
    · exact .inr (.inr (.inr ⟨rfl, by simp, by simp, fun _ => by omega⟩))
  all_goals first
    | (cases h; exact .inr (.inr (.inr ⟨rfl, by simp, by simp, by simp⟩)))
    | (simp only [execSkipEqImm, execSkipNeImm, execSkipEqReg, skipIf_eq] at h; cases h
       exact .inr (.inr (.inr ⟨by split <;> rfl, by simp, by simp, by simp⟩)))

end Sys2Proof.Machine
end

