-- ==== Sys2Proof/Laws/PerInstr.lean ====
section
/-! SUPPORT. Per-instruction laws, one lemma per constructor of `Instr`. Family EncodingRow: the word of an instruction is selected
by a row of the opcode map that bears the instruction's own mnemonic (spec/30_encoding.md R47). -/

namespace Sys2Proof.Laws.EncodingRow

/-- The encoding of `i` lies in the row of the opcode map named after `i`. -/
def Statement (i : Instr) : Prop := ∃ r ∈ opcodeMap, r.mnemonic = i.mnemonic ∧ r.matchesWord (encode i) = true

theorem matches_major {op p : Word} {m : String} (h : op.toNat / 4096 * 4096 = p.toNat) :
    (OpcodeRow.mk p 0xF000#16 m).matchesWord op = true := by
  simp [OpcodeRow.matchesWord, ← BitVec.toNat_inj, -BitVec.toNat_and, and_F000_toNat, h]

theorem matches_major_sub {op p : Word} {m : String} (h : op.toNat / 4096 * 4096 + op.toNat % 16 = p.toNat) :
    (OpcodeRow.mk p 0xF00F#16 m).matchesWord op = true := by
  simp [OpcodeRow.matchesWord, ← BitVec.toNat_inj, -BitVec.toNat_and, and_F00F_toNat, h]

theorem formatNNN_in_row (h : BitVec 4) (nnn : Addr12) : (formatNNN h nnn).toNat / 4096 * 4096 = h.toNat * 4096 := by
  have := nnn.isLt
  rw [formatNNN_toNat]; omega

theorem formatXKK_in_row (h : BitVec 4) (x : RegIdx) (kk : Byte) :
    (formatXKK h x kk).toNat / 4096 * 4096 = h.toNat * 4096 := by
  have := kk.isLt; have := x.isLt
  rw [formatXKK_toNat]; omega

theorem formatXYN_in_row (h : BitVec 4) (x y : RegIdx) (n : BitVec 4) :
    (formatXYN h x y n).toNat / 4096 * 4096 + (formatXYN h x y n).toNat % 16 = h.toNat * 4096 + n.toNat := by
  have := n.isLt; have := x.isLt; have := y.isLt
  rw [formatXYN_toNat]; omega

theorem halt : Statement .halt := ⟨⟨0x0000#16, 0xFFFF#16, "HALT"⟩, by decide, rfl, by decide⟩
theorem clear : Statement .clear := ⟨⟨0x00E0#16, 0xFFFF#16, "CLEAR"⟩, by decide, rfl, by decide⟩
theorem ret : Statement .ret := ⟨⟨0x00EE#16, 0xFFFF#16, "RETURN"⟩, by decide, rfl, by decide⟩
theorem jump (nnn : Addr12) : Statement (.jump nnn) :=
  ⟨⟨0x1000#16, 0xF000#16, "JUMP"⟩, by decide, rfl, matches_major (formatNNN_in_row _ _)⟩
theorem call (nnn : Addr12) : Statement (.call nnn) :=
  ⟨⟨0x2000#16, 0xF000#16, "CALL"⟩, by decide, rfl, matches_major (formatNNN_in_row _ _)⟩
theorem skipEqImm (x : RegIdx) (kk : Byte) : Statement (.skipEqImm x kk) :=
  ⟨⟨0x3000#16, 0xF000#16, "SKIP-EQ-IMM"⟩, by decide, rfl, matches_major (formatXKK_in_row _ _ _)⟩
theorem skipNeImm (x : RegIdx) (kk : Byte) : Statement (.skipNeImm x kk) :=
  ⟨⟨0x4000#16, 0xF000#16, "SKIP-NE-IMM"⟩, by decide, rfl, matches_major (formatXKK_in_row _ _ _)⟩
theorem skipEqReg (x y : RegIdx) : Statement (.skipEqReg x y) :=
  ⟨⟨0x5000#16, 0xF00F#16, "SKIP-EQ-REG"⟩, by decide, rfl, matches_major_sub (formatXYN_in_row _ _ _ _)⟩
theorem loadImm (x : RegIdx) (kk : Byte) : Statement (.loadImm x kk) :=
  ⟨⟨0x6000#16, 0xF000#16, "LOAD-IMM"⟩, by decide, rfl, matches_major (formatXKK_in_row _ _ _)⟩
theorem addImm (x : RegIdx) (kk : Byte) : Statement (.addImm x kk) :=
  ⟨⟨0x7000#16, 0xF000#16, "ADD-IMM"⟩, by decide, rfl, matches_major (formatXKK_in_row _ _ _)⟩
theorem loadReg (x y : RegIdx) : Statement (.loadReg x y) :=
  ⟨⟨0x8000#16, 0xF00F#16, "LOAD-REG"⟩, by decide, rfl, matches_major_sub (formatXYN_in_row _ _ _ _)⟩
theorem orReg (x y : RegIdx) : Statement (.orReg x y) :=
  ⟨⟨0x8001#16, 0xF00F#16, "OR"⟩, by decide, rfl, matches_major_sub (formatXYN_in_row _ _ _ _)⟩
theorem andReg (x y : RegIdx) : Statement (.andReg x y) :=
  ⟨⟨0x8002#16, 0xF00F#16, "AND"⟩, by decide, rfl, matches_major_sub (formatXYN_in_row _ _ _ _)⟩
theorem xorReg (x y : RegIdx) : Statement (.xorReg x y) :=
  ⟨⟨0x8003#16, 0xF00F#16, "XOR"⟩, by decide, rfl, matches_major_sub (formatXYN_in_row _ _ _ _)⟩
theorem addCarry (x y : RegIdx) : Statement (.addCarry x y) :=
  ⟨⟨0x8004#16, 0xF00F#16, "ADD-CARRY"⟩, by decide, rfl, matches_major_sub (formatXYN_in_row _ _ _ _)⟩

end Sys2Proof.Laws.EncodingRow
end

