-- ==== Sys2Proof/Laws/Step.lean ====
section
/-! SUPPORT. Everything a step can do: the one inversion lemma every claim over steps cites. -/

namespace Sys2Proof.Machine

/-- When a step answers a next state, the machine was running, and either the fetch failed, or the fetched word was no opcode,
or the decoded instruction ran on the state with `pc` advanced. -/
theorem step_cases {s t : State} (h : step s = .next t) :
    s.status = .running ∧
    ((∃ f, fetchWord s = .error f ∧ t = s.setStatus (.faulted f)) ∨
     (∃ op, fetchWord s = .ok op ∧ decode op = .error (.unimplemented op) ∧
       t = (advance s).setStatus (.faulted (.unimplementedOpcode op))) ∨
     (∃ op i, fetchWord s = .ok op ∧ decode op = .ok i ∧ exec i (advance s) = .next t)) := by
  unfold step runStep at h
  split at h
  case h_1 hs =>
    refine ⟨hs, ?_⟩
    unfold cycle at h
    split at h
    case h_1 f hf => cases h; exact .inl ⟨f, hf, rfl⟩
    case h_2 op hf =>
      unfold dispatchWord at h
      split at h
      case h_1 i hi => exact .inr (.inr ⟨op, i, hf, hi, h⟩)
      case h_2 r hr =>
        obtain rfl := decode_error hr
        cases h
        exact .inr (.inl ⟨op, hf, hr, rfl⟩)
  case h_2 => cases h
  case h_3 => cases h

/-- A running machine whose fetch gives a word steps by dispatching it. -/
theorem step_of_fetch {s : State} {op : Word} (hs : s.status = .running) (hf : fetchWord s = .ok op) :
    step s = dispatchWord op (advance s) := by
  simp [step, runStep, hs, cycle, hf]

/-- A fetch that gives a word had both bytes inside memory, so the fetch advance and a skip do not wrap (spec/10_state.md R21). -/
theorem fetched_pc {s : State} {op : Word} (hf : fetchWord s = .ok op) :
    s.pc.toNat + 1 < 4096 ∧ (s.pc + 2#16).toNat = s.pc.toNat + 2 ∧ (s.pc + 2#16 + 2#16).toNat = s.pc.toNat + 4 := by
  have h : s.pc.toNat + 1 < 4096 := by
    rcases fetchWord_cases s with ⟨h, _⟩ | ⟨_, e⟩ | ⟨_, e⟩
    · exact h
    · rw [e] at hf; cases hf
    · rw [e] at hf; cases hf
  refine ⟨h, ?_, ?_⟩ <;> simp <;> omega

end Sys2Proof.Machine
end

