-- ==== Sys2Proof/Machine/Assembly.lean ====
section
/-! DEFINITION. How the spec writes an instruction (spec/30_encoding.md R51): its mnemonic, then its operands, registers as `V0`..`VF`,
immediates as hexadecimal numbers; a data word as `.word 0xHHHH`. No behaviour depends on it. -/

namespace Sys2Proof.Machine

/-- A hexadecimal digit. -/
def hexDigit (n : Nat) : String :=
  match n with
  | 0 => "0" | 1 => "1" | 2 => "2" | 3 => "3" | 4 => "4" | 5 => "5" | 6 => "6" | 7 => "7"
  | 8 => "8" | 9 => "9" | 10 => "A" | 11 => "B" | 12 => "C" | 13 => "D" | 14 => "E" | _ => "F"

/-- The low `digits` hexadecimal digits of a number, the most significant first. -/
def hexDigits : Nat → Nat → String
  | 0, _ => ""
  | digits + 1, n => hexDigits digits (n / 16) ++ hexDigit (n % 16)

/-- A register's name. -/
def regName (x : RegIdx) : String := "V" ++ hexDigit x.val

/-- A byte immediate. -/
def byteText (kk : Byte) : String := "0x" ++ hexDigits 2 kk.toNat

/-- An address immediate. -/
def addrText (nnn : Addr12) : String := "0x" ++ hexDigits 3 nnn.toNat

/-- The operands of an instruction, in the order R51 writes them. -/
def operandTexts : Instr → List String
  | .halt | .clear | .ret => []
  | .jump nnn | .call nnn => [addrText nnn]
  | .skipEqImm x kk | .skipNeImm x kk | .loadImm x kk | .addImm x kk => [regName x, byteText kk]
  | .skipEqReg x y | .loadReg x y | .orReg x y | .andReg x y | .xorReg x y | .addCarry x y => [regName x, regName y]

/-- An instruction as R51 writes it. -/
def assemblyText (i : Instr) : String :=
  match operandTexts i with
  | [] => i.mnemonic
  | [a] => i.mnemonic ++ " " ++ a
  | a :: b :: _ => i.mnemonic ++ " " ++ a ++ ", " ++ b

/-- A word of a program listing: its instruction, or a data word. -/
def listingText (op : Word) : String :=
  match decode op with
  | .ok i => assemblyText i
  | .error _ => ".word 0x" ++ hexDigits 4 op.toNat

end Sys2Proof.Machine
end

