-- ==== Sys2Proof/Tests/Slice0.lean ====
section
/-! SUPPORT. Tests: decoding of words written out from the spec's encodings (spec/30_encoding.md R47, R51); the well-formedness smoke
tests; one or two single steps per instruction, expected values from spec/95_test_vectors.md (the vector's number is in each
comment); and, for every statement with hypotheses, a state and operands that meet them (`witness_<Name>`). -/

namespace Sys2Proof.Tests
open Sys2Proof.Machine

/-- Does a result have a next state with this property? -/
def nextHas (p : State → Bool) : Result → Bool
  | .next t => p t
  | _ => false

/-- A reset machine at `pc`, with the word `op` placed there. -/
def ready (pc op : Nat) : State := (State.reset.setPc (BitVec.ofNat 16 pc)).withFetchWord 16 op

/-! ## Decoding, each word bit by bit from R43 and R47 -/

theorem test_decode_halt : decode 0b0000000000000000#16 = .ok .halt := by decide
theorem test_decode_clear : decode 0b0000000011100000#16 = .ok .clear := by decide
theorem test_decode_return : decode 0b0000000011101110#16 = .ok .ret := by decide
theorem test_decode_jump : decode (0b0001#4 ++ 0b000000000000#12) = .ok (.jump 0x000#12) := by decide
theorem test_decode_call : decode (0b0010#4 ++ 0b111111111111#12) = .ok (.call 0xFFF#12) := by decide
theorem test_decode_skipEqImm : decode (0b0011#4 ++ (0b1010#4 ++ 0b01011011#8)) = .ok (.skipEqImm 0xA 0x5B#8) := by decide
theorem test_decode_skipNeImm : decode (0b0100#4 ++ (0b0011#4 ++ 0b00101010#8)) = .ok (.skipNeImm 3 0x2A#8) := by decide
theorem test_decode_skipEqReg : decode (0b0101#4 ++ (0b1010#4 ++ (0b1011#4 ++ 0b0000#4))) = .ok (.skipEqReg 0xA 0xB) := by decide
theorem test_decode_loadImm : decode (0b0110#4 ++ (0b0101#4 ++ 0b11111111#8)) = .ok (.loadImm 5 0xFF#8) := by decide
theorem test_decode_addImm : decode (0b0111#4 ++ (0b0101#4 ++ 0b00000001#8)) = .ok (.addImm 5 0x01#8) := by decide
theorem test_decode_loadReg : decode (0b1000#4 ++ (0b0010#4 ++ (0b1111#4 ++ 0b0000#4))) = .ok (.loadReg 2 0xF) := by decide
theorem test_decode_or : decode (0b1000#4 ++ (0b0000#4 ++ (0b0001#4 ++ 0b0001#4))) = .ok (.orReg 0 1) := by decide
theorem test_decode_and : decode (0b1000#4 ++ (0b0000#4 ++ (0b0001#4 ++ 0b0010#4))) = .ok (.andReg 0 1) := by decide
theorem test_decode_xor : decode (0b1000#4 ++ (0b1000#4 ++ (0b0001#4 ++ 0b0011#4))) = .ok (.xorReg 8 1) := by decide
theorem test_decode_addCarry : decode (0b1000#4 ++ (0b1010#4 ++ (0b1011#4 ++ 0b0100#4))) = .ok (.addCarry 0xA 0xB) := by decide
theorem test_decodeBytes_high_first : decodeBytes [0x8A#8, 0xB4#8, 0xFF#8] = .ok (.addCarry 0xA 0xB, [0xFF#8]) := by decide
theorem test_decodeTableWord : decodeTableWord 16 0x8AB4 = some (.addCarry 0xA 0xB) := by decide
theorem test_decodeTableWord_unimplemented : decodeTableWord 16 0x0EE0 = none := by decide

/-- R51's forms. -/
theorem test_assembly : listingText 0x1200#16 = "JUMP 0x200" ∧ listingText 0x332A#16 = "SKIP-EQ-IMM V3, 0x2A" ∧
    listingText 0x8AF4#16 = "ADD-CARRY VA, VF" ∧ listingText 0xFFFF#16 = ".word 0xFFFF" := by decide

/-! ## Well-formedness: each region of unimplemented words (R48) is refused, and an ill-formed launch (10_state.md R28) -/

theorem test_illFormed_zero_major : wellFormedWord 0x0001#16 = false ∧ decode 0x0001#16 = .error (.unimplemented 0x0001#16) := by decide
theorem test_illFormed_skip_nibble : wellFormedWord 0x5121#16 = false ∧ decode 0x5121#16 = .error (.unimplemented 0x5121#16) := by decide
theorem test_illFormed_alu_nibble : wellFormedWord 0x8005#16 = false ∧ decode 0x8005#16 = .error (.unimplemented 0x8005#16) := by decide
theorem test_illFormed_high_major : wellFormedWord 0x9000#16 = false ∧ decode 0xD125#16 = .error (.unimplemented 0xD125#16) := by decide
theorem test_illFormed_too_few_bytes : decodeBytes [0x00#8] = .error .tooFewBytes := by decide

/-- A launch with the given stack pointer and nothing loaded. -/
def emptyLaunch (sp : Nat) : Launch :=
  { mem := [(⟨0, by omega⟩, 0x12#8), (⟨1, by omega⟩, 0x34#8)], v := Vector.replicate 16 0x00#8, pc := 0#16,
    stack := Vector.replicate 16 0#16, sp := sp }

theorem test_illFormed_launch : (emptyLaunch 17).wellFormed = false ∧ launch (emptyLaunch 17) = .refused (.stackPointerOutOfRange 17) :=
  ⟨by decide, rfl⟩
theorem test_launch_loads_bytes :
    nextHas (fun t => t.sp == 16 && fetchWord t == .ok 0x1234#16) (launch (emptyLaunch 16)) = true := by decide
theorem test_memory_not_canonical : Memory.wf [(3, 0x00#8)] = false ∧ Memory.wf [(3, 1#8), (3, 2#8)] = false ∧
    Memory.wf [(4096, 1#8)] = false ∧ Memory.wf [(3, 1#8), (4095, 2#8)] = true := by decide

/-! ## Single steps from 95_test_vectors.md -/

/-- H1 -/
theorem test_halt : nextHas (fun t => t.status == .halted && t.pc == 0x006 && t.reg 0 == 0x2D)
    (step ((ready 0x004 0x0000).setReg 0 0x2D)) = true := by decide
/-- H2 -/
theorem test_clear : nextHas (fun t => t == ((ready 0x010 0x00E0).setReg 5 0x11).setPc 0x012)
    (step ((ready 0x010 0x00E0).setReg 5 0x11)) = true := by decide
/-- R4 -/
theorem test_return_lifo : nextHas (fun t => t.sp == 1 && t.pc == 0x020 && t.stackAt 1 == 0x020)
    (step ((((ready 0x100 0x00EE).setStackAt 0 0x010).setStackAt 1 0x020).setSp 2)) = true := by decide
/-- R2 -/
theorem test_return_underflow : nextHas (fun t => t.sp == 0 && t.pc == 0x106 && t.status == .faulted .stackUnderflow)
    (step (ready 0x104 0x00EE)) = true := by decide
/-- J1 -/
theorem test_jump : nextHas (fun t => t.pc == 0x234) (step (ready 0x000 0x1234)) = true := by decide
/-- C2 -/
theorem test_call_last_slot : nextHas (fun t => t.stackAt 15 == 0x302 && t.sp == 16 && t.pc == 0x400)
    (step ((ready 0x300 0x2400).setSp 15)) = true := by decide
/-- C3 -/
theorem test_call_overflow : nextHas (fun t => t.sp == 16 && t.pc == 0x302 && t.status == .faulted .stackOverflow && t.stackAt 15 == 0)
    (step ((ready 0x300 0x2400).setSp 16)) = true := by decide
/-- S1, S2 -/
theorem test_skipEqImm : nextHas (fun t => t.pc == 0x024) (step ((ready 0x020 0x332A).setReg 3 0x2A)) = true ∧
    nextHas (fun t => t.pc == 0x022) (step ((ready 0x020 0x332A).setReg 3 0x2B)) = true := by decide
/-- S3, S4 -/
theorem test_skipNeImm : nextHas (fun t => t.pc == 0x024) (step ((ready 0x020 0x432A).setReg 3 0x2B)) = true ∧
    nextHas (fun t => t.pc == 0x022) (step ((ready 0x020 0x432A).setReg 3 0x2A)) = true := by decide
/-- S5, S6 -/
theorem test_skipEqReg : nextHas (fun t => t.pc == 0x024) (step (((ready 0x020 0x5120).setReg 1 7).setReg 2 7)) = true ∧
    nextHas (fun t => t.pc == 0x022) (step (((ready 0x020 0x5120).setReg 1 7).setReg 2 8)) = true := by decide
/-- I1 -/
theorem test_loadImm : nextHas (fun t => t.reg 5 == 0xFF && t.pc == 0x042) (step ((ready 0x040 0x65FF).setReg 5 0x12)) = true := by decide
/-- I4 -/
theorem test_addImm_no_flag : nextHas (fun t => t.reg 5 == 0x00 && t.reg 15 == 0x07)
    (step (((ready 0x042 0x7501).setReg 5 0xFF).setReg 15 0x07)) = true := by decide
/-- I6 -/
theorem test_addImm_vf : nextHas (fun t => t.reg 15 == 0x00) (step ((ready 0 0x7F01).setReg 15 0xFF)) = true := by decide
/-- A2 -/
theorem test_loadReg : nextHas (fun t => t.reg 2 == 0x01) (step ((ready 0 0x82F0).setReg 15 0x01)) = true := by decide
/-- A3 -/
theorem test_or : nextHas (fun t => t.reg 0 == 0xFF && t.reg 15 == 0x55)
    (step ((((ready 0 0x8011).setReg 0 0xF0).setReg 1 0x0F).setReg 15 0x55)) = true := by decide
/-- A5 -/
theorem test_and : nextHas (fun t => t.reg 0 == 0x33 && t.reg 15 == 0x55)
    (step ((((ready 0 0x8012).setReg 0 0xF3).setReg 1 0x3F).setReg 15 0x55)) = true := by decide
/-- A7 -/
theorem test_xor : nextHas (fun t => t.reg 0 == 0xF0 && t.reg 1 == 0x0F)
    (step (((ready 0 0x8013).setReg 0 0xFF).setReg 1 0x0F)) = true := by decide
/-- A13, A14 -/
theorem test_addCarry_boundary : nextHas (fun t => t.reg 0 == 0xFF && t.reg 15 == 0) (step ((ready 0 0x8014).setReg 0 0xFF)) = true ∧
    nextHas (fun t => t.reg 0 == 0xFE && t.reg 15 == 1) (step (((ready 0 0x8014).setReg 0 0xFF).setReg 1 0xFF)) = true := by decide
/-- A18, A20 -/
theorem test_addCarry_vf : nextHas (fun t => t.reg 15 == 0x01) (step (((ready 0 0x8F04).setReg 15 0xFF).setReg 0 0x01)) = true ∧
    nextHas (fun t => t.reg 1 == 0x00 && t.reg 15 == 0x01) (step (((ready 0 0x81F4).setReg 1 0xFF).setReg 15 0x01)) = true := by decide
/-- F2: an odd pc fetches -/
theorem test_fetch_odd : nextHas (fun t => t.reg 1 == 0x7F && t.pc == 0x125) (step (ready 0x123 0x617F)) = true := by decide
/-- F4, F6 -/
theorem test_fetch_outOfBounds :
    nextHas (fun t => t.status == .faulted (.outOfBounds 4096) && t.pc == 0xFFF) (step (State.reset.setPc 0xFFF)) = true ∧
    nextHas (fun t => t.status == .faulted (.outOfBounds 0xFFFF) && t.pc == 0xFFFF) (step (State.reset.setPc 0xFFFF)) = true := by decide
/-- F14 -/
theorem test_unimplemented : nextHas (fun t => t.status == .faulted (.unimplementedOpcode 0xD125) && t.pc == 0x002)
    (step (ready 0 0xD125)) = true := by decide

/-! ## Witnesses: for each statement with hypotheses, a state and operands that meet them -/

/-- A machine inside a subroutine, about to return: one live entry, memory with a program word. -/
def inSubroutine : State := ((ready 0x104 0x00EE).setStackAt 0 0x0002).setSp 1

theorem witness_EveryStepKeepsInvariant : inSubroutine.Inv ∧ ∃ t, step inSubroutine = .next t ∧ t.pc = 0x0002#16 :=
  ⟨by unfold State.Inv; decide, _, rfl, rfl⟩
theorem witness_DecodeThenEncodeGivesTheWord : decode 0x8AB4#16 = .ok (.addCarry 0xA 0xB) := by decide
theorem witness_DecodeAcceptsExactlyTheOpcodeMap : (∃ r ∈ opcodeMap, 0x8FF4#16 &&& r.mask = r.pattern) ∧
    ∀ r ∈ opcodeMap, 0x8FF5#16 &&& r.mask ≠ r.pattern := by decide
theorem witness_OpcodeMapRowsAreDisjoint : ∃ r ∈ opcodeMap, ∃ r' ∈ opcodeMap,
    0x5FF0#16 &&& r.mask = r.pattern ∧ 0x5FF0#16 &&& r'.mask = r'.pattern := by decide
theorem witness_OperandFieldsAreTheOpcodeBits : decode 0x5FF0#16 = .ok (.skipEqReg 15 15) := by decide
theorem witness_StepRunsTheDecodedInstruction : (ready 4094 0x6A7F).status = .running ∧
    memRead (ready 4094 0x6A7F).mem (ready 4094 0x6A7F).pc.toNat = .ok 0x6A#8 ∧
    memRead (ready 4094 0x6A7F).mem ((ready 4094 0x6A7F).pc.toNat + 1) = .ok 0x7F#8 ∧
    decode (wordOfBytes 0x6A#8 0x7F#8) = .ok (.loadImm 0xA 0x7F#8) := by decide
theorem witness_FetchAndLoaderAreBigEndian :
    (memRead (ready 4094 0x6A7F).mem (ready 4094 0x6A7F).pc.toNat = .ok 0x6A#8 ∧
      memRead (ready 4094 0x6A7F).mem ((ready 4094 0x6A7F).pc.toNat + 1) = .ok 0x7F#8) ∧
    (Memory.wf [(4095, 0x01#8)] = true ∧ 4094 + 1 ≤ 4095) := by decide
theorem witness_FetchOutsideMemoryFaults :
    (State.reset.setPc 0x1000).status = .running ∧ 4095 < (State.reset.setPc 0x1000).pc.toNat ∧
    (State.reset.setPc 0x0FFF).status = .running ∧ (State.reset.setPc 0x0FFF).pc.toNat = 4095 := by decide
theorem witness_UnimplementedWordFaults : (ready 0 0x8005).status = .running ∧ fetchWord (ready 0 0x8005) = .ok 0x8005#16 ∧
    wellFormedWord 0x8005#16 = false := by decide
theorem witness_ClearChangesNothing : (ready 0 0x00E0).status = .running ∧ fetchWord (ready 0 0x00E0) = .ok 0x00E0#16 := by decide
theorem witness_ReturnPopsTheTopEntry : ((0 : Fin 16).val + 1 = inSubroutine.sp.val) ∧
    ((15 : Fin 16).val + 1 = (State.reset.setSp 16).sp.val) := by decide
theorem witness_ReturnOnEmptyStackFaults : State.reset.sp = 0 := by decide
theorem witness_JumpLoadsTheAddress : 0x1FFF#16 &&& 0xF000#16 = 0x1000#16 := by decide
theorem witness_CallPushesTheReturnAddress : 0x2FFF#16 &&& 0xF000#16 = 0x2000#16 ∧ (State.reset.setSp 15).sp.val < 16 := by decide
theorem witness_CallOnFullStackFaults : (State.reset.setSp 16).sp.val = 16 := by decide
theorem witness_CallThenReturnRestoresPcAndSp : (State.reset.setSp 15).sp.val < 16 ∧
    ∃ t, exec (.call 0x100#12) (State.reset.setSp 15) = .next t ∧ (t.setReg 3 7).sp = t.sp ∧ t.entriesSame (t.setReg 3 7) :=
  ⟨by decide, _, rfl, rfl, fun _ => rfl⟩
theorem witness_NestedCallsFillTheStackThenFault : State.reset.status = .running ∧ State.reset.sp = 0 ∧
    (List.replicate 16 0x100#12).length ≤ 16 ∧ 17 ≤ (List.replicate 17 0x100#12).length := by decide
theorem witness_SkipEqImmSkipsOnEqual : 0x3A5B#16 &&& 0xF000#16 = 0x3000#16 := by decide
theorem witness_SkipNeImmSkipsOnUnequal : 0x4F00#16 &&& 0xF000#16 = 0x4000#16 := by decide
theorem witness_SkipEqRegSkipsOnEqual : 0x5FF0#16 &&& 0xF00F#16 = 0x5000#16 ∧
    (0x5FF1#16 &&& 0xF000#16 = 0x5000#16 ∧ 0x5FF1#16 &&& 0x000F#16 ≠ 0x0000#16) := by decide
theorem witness_SkipStepAdvancesTwoOrFour : (ready 4094 0x3000).status = .running ∧ fetchWord (ready 4094 0x3000) = .ok 0x3000#16 ∧
    decode 0x3000#16 = .ok (.skipEqImm 0 0x00#8) ∧ (true = true ↔ (ready 4094 0x3000).reg 0 = 0x00#8) := by decide
theorem witness_SkipStep_notTaken : decode 0x4000#16 = .ok (.skipNeImm 0 0x00#8) ∧
    (false = true ↔ (ready 4094 0x4000).reg 0 ≠ 0x00#8) ∧ decode 0x5120#16 = .ok (.skipEqReg 1 2) ∧
    (true = true ↔ (ready 0 0x5120).reg 1 = (ready 0 0x5120).reg 2) := by decide
theorem witness_LoadImmSetsTheRegister : 0x6FFF#16 &&& 0xF000#16 = 0x6000#16 := by decide
theorem witness_AddImmWrapsWithoutFlag : 0x7F01#16 &&& 0xF000#16 = 0x7000#16 := by decide
theorem witness_LoadRegCopiesTheRegister : 0x8FF0#16 &&& 0xF00F#16 = 0x8000#16 := by decide
theorem witness_OrSetsTheRegisterOnly : 0x8FF1#16 &&& 0xF00F#16 = 0x8001#16 := by decide
theorem witness_AndSetsTheRegisterOnly : 0x8FF2#16 &&& 0xF00F#16 = 0x8002#16 := by decide
theorem witness_XorSetsTheRegisterOnly : 0x8FF3#16 &&& 0xF00F#16 = 0x8003#16 := by decide
theorem witness_AddCarrySetsSumAndCarry : 0x8FF4#16 &&& 0xF00F#16 = 0x8004#16 ∧ (14 : RegIdx) ≠ 15 := by decide
theorem witness_AddCarrySumIsExact : (1 : RegIdx) ≠ 15 ∧ ∃ t, exec (.addCarry 1 15) (State.reset.setReg 15 0xFF#8) = .next t :=
  ⟨by decide, _, rfl⟩
theorem witness_OnlyAddCarryWritesVfUnasked : ∃ t, exec (.addCarry 0 0) (State.reset.setReg 0 0x80#8) = .next t ∧
    t.reg 15 ≠ (State.reset.setReg 0 0x80#8).reg 15 := ⟨_, rfl, by decide⟩
theorem witness_RegistersOutsideWriteSetUnchanged : ∃ t, exec (.addCarry 0 1) State.reset = .next t := ⟨_, rfl⟩
theorem witness_EffectDependsOnlyOnReadSet :
    (∀ k ∈ (Instr.addCarry 0 1).readSet, ((State.reset.setReg 7 0x55#8).v)[k] = State.reset.reg k) ∧
    ∃ t, exec (.addCarry 0 1) State.reset = .next t := ⟨by decide, _, rfl⟩
theorem witness_OnlyCallWritesTheReturnStack : (∀ nnn, Instr.ret ≠ .call nnn) ∧ ∃ t, exec .ret inSubroutine = .next t :=
  ⟨by simp, _, rfl⟩
theorem witness_OnlyReturnReadsTheReturnStack : Instr.call 0x100#12 ≠ .ret ∧ ∃ t, exec (.call 0x100#12) State.reset = .next t :=
  ⟨by decide, _, rfl⟩
theorem witness_MemoryIsConstantDuringARun : (∃ t, step inSubroutine = .next t) ∧ (∃ t, run 5 State.reset = .ended t) ∧
    ∃ t, run 5 (ready 0x020 0x1020) = .notEnded t := ⟨⟨_, rfl⟩, ⟨_, rfl⟩, _, rfl⟩
theorem witness_StepReadsOnlyTheTwoFetchedBytes :
    memRead [(2, 0xFF#8)] State.reset.pc.toNat = memRead State.reset.mem State.reset.pc.toNat ∧
    memRead [(2, 0xFF#8)] (State.reset.pc.toNat + 1) = memRead State.reset.mem (State.reset.pc.toNat + 1) ∧
    (∃ t, step State.reset = .next t) ∧ step (State.reset.setStatus .halted) = .fault .alreadyHalted :=
  ⟨by decide, by decide, ⟨_, rfl⟩, rfl⟩
theorem witness_ProgramCounterAfterAStep : fetchWord inSubroutine = .ok 0x00EE#16 ∧ decode 0x00EE#16 = .ok .ret ∧
    (0 : Fin 16).val + 1 = inSubroutine.sp.val ∧ ∃ t, step inSubroutine = .next t := ⟨by decide, by decide, by decide, _, rfl⟩
theorem witness_ProgramCounterAfterAStep_other :
    (fetchWord (ready 4094 0x2FFF) = .ok 0x2FFF#16 ∧ decode 0x2FFF#16 = .ok (.call 0xFFF#12) ∧ (ready 4094 0x2FFF).sp.val < 16) ∧
    (fetchWord (ready 0 0x1FFF) = .ok 0x1FFF#16 ∧ decode 0x1FFF#16 = .ok (.jump 0xFFF#12)) ∧
    (fetchWord (ready 4094 0x00E0) = .ok 0x00E0#16 ∧ decode 0x00E0#16 = .ok .clear) ∧ (Instr.loadImm 0 0#8).writeSet ≠ [] := by
  decide
theorem witness_HaltedExactlyByTheHaltWord : ∃ t, step State.reset = .next t ∧ t.status = .halted := ⟨_, rfl, rfl⟩
theorem witness_FailureCausesAreExact :
    (∃ t, step (State.reset.setPc 0x1000) = .next t ∧ t.status = .faulted (.outOfBounds 4096)) ∧
    (∃ t, step (State.reset.setPc 0x0FFF) = .next t ∧ t.status = .faulted (.outOfBounds 4096)) ∧
    (∃ t, step (ready 0 0x8005) = .next t ∧ t.status = .faulted (.unimplementedOpcode 0x8005#16)) ∧
    (∃ t, step ((ready 0 0x2000).setSp 16) = .next t ∧ t.status = .faulted .stackOverflow) ∧
    (∃ t, step (ready 0 0x00EE) = .next t ∧ t.status = .faulted .stackUnderflow) ∧
    (∃ t, step ((ready 0 0x2000).setSp 15) = .next t ∧ t.status = .running) :=
  ⟨⟨_, rfl, rfl⟩, ⟨_, rfl, rfl⟩, ⟨_, rfl, rfl⟩, ⟨_, rfl, rfl⟩, ⟨_, rfl, rfl⟩, _, rfl, rfl⟩
theorem witness_FailingStepKeepsEverythingElse :
    (∃ t, step (State.reset.setPc 0xFFFF) = .next t ∧ t.status = .faulted (.outOfBounds 0xFFFF)) ∧
    ∃ t, step (ready 4094 0x00EE) = .next t ∧ t.status = .faulted .stackUnderflow := ⟨⟨_, rfl, rfl⟩, _, rfl, rfl⟩
theorem witness_RunningMachineAlwaysSteps : (State.reset.setPc 0xFFFF).status = .running := by decide
theorem witness_StoppedMachineTakesNoStep : (State.reset.setStatus .halted).status = .halted ∧
    (State.reset.setStatus (.faulted .stackOverflow)).status = .faulted .stackOverflow := by decide
theorem witness_WrittenByteIsReadBack : Memory.wf [(4095, 0x01#8)] = true ∧ 4095 ≤ 4095 ∧ 4095 < 4096 :=
  ⟨by decide, by omega, by omega⟩
theorem witness_EqualReadsMeanEqualMemories : Memory.wf [(3, 1#8), (4095, 2#8)] = true ∧
    Memory.wf (Memory.setByte [(3, 1#8)] 4095 2#8) = true ∧
    ∀ a : Nat, memRead [(3, 1#8), (4095, 2#8)] a = memRead (Memory.setByte [(3, 1#8)] 4095 2#8) a :=
  ⟨by decide, by decide, fun _ => rfl⟩
theorem witness_PlacedWordIsFetchedNext : Memory.wf (State.reset.setPc 0xFFFF).mem = true := by decide
theorem witness_LaunchRefusedExactlyAboveSixteen : 16 < (emptyLaunch 17).sp ∧ (emptyLaunch 16).sp ≤ 16 := by decide
theorem witness_LaunchLoadsTheGivenValues : (emptyLaunch 16).sp ≤ 16 ∧ (∀ p ∈ (emptyLaunch 16).mem, p.1 ≠ ⟨4095, by omega⟩) ∧
    (emptyLaunch 16).mem = [] ++ (⟨0, by omega⟩, 0x12#8) :: [(⟨1, by omega⟩, 0x34#8)] ∧
    ∀ p ∈ [((⟨1, by omega⟩ : Fin 4096), 0x34#8)], p.1 ≠ ⟨0, by omega⟩ :=
  ⟨by decide, by simp [emptyLaunch], rfl, by simp⟩
theorem witness_RelaunchKeepsTheState : Memory.wf inSubroutine.mem = true := by decide
theorem witness_RunReportsHowItEnded : (∃ t, run 5 (ready 0x020 0x1020) = .notEnded t) ∧ ∃ t, run 1 State.reset = .ended t :=
  ⟨⟨_, rfl⟩, _, rfl⟩
theorem witness_JumpToItselfNeverEnds : (ready 0x020 0x1020).status = .running ∧ fetchWord (ready 0x020 0x1020) = .ok 0x1020#16 ∧
    decode 0x1020#16 = .ok (.jump 0x020#12) ∧ (ready 0x020 0x1020).pc.toNat = (0x020#12).toNat := by decide
theorem witness_CompletionReportsCodeAndInfo : State.reset.status = .running ∧ (State.reset.setStatus .halted).status ≠ .running ∧
    (State.reset.setStatus .halted).status = .halted ∧
    (State.reset.setStatus (.faulted (.unimplementedOpcode 0xFFFF#16))).status = .faulted (.unimplementedOpcode 0xFFFF#16) ∧
    (State.reset.setStatus (.faulted .stackOverflow)).status = .faulted .stackOverflow ∧
    (State.reset.setStatus (.faulted .stackUnderflow)).status = .faulted .stackUnderflow ∧
    (State.reset.setStatus (.faulted (.outOfBounds 4096))).status = .faulted (.outOfBounds 4096) := by decide

end Sys2Proof.Tests
end

section
/-! PROOFS of the memory family (spec/20_memory.md): what a read answers after the host puts a byte or an opcode, and the word a
fetch makes of the two bytes it reads. -/

namespace Sys2Proof.Machine

/-- R30: after one byte is put inside canonical memory, its address reads as that byte and every other address as before. -/
theorem memRead_setByte {m : Memory} {a : Nat} (b : Byte) (h : Memory.wf m = true) (ha : a < Config.memSize) (k : Nat) :
    memRead (Memory.setByte m a b) k = if k = a then .ok b else memRead m k := by
  by_cases hk : k = a
  · rw [if_pos hk, memRead_ok_iff, byteAt_setByte h, if_pos hk]
    exact ⟨hk ▸ ha, rfl⟩
  · rw [if_neg hk, memRead, memRead, byteAt_setByte h, if_neg hk]

/-- R32, R84: what every address reads as after an opcode is laid out at `a`. -/
theorem memRead_placeWord {m : Memory} {a : Nat} (op : Word) (h : Memory.wf m = true) (ha : a + 1 < Config.memSize) (k : Nat) :
    memRead (Memory.placeWord m a op) k =
      if k = a + 1 then .ok (lowByte op) else if k = a then .ok (highByte op) else memRead m k := by
  have hfst : a < Config.memSize := Nat.lt_of_succ_lt ha
  rw [Memory.placeWord, memRead_setByte _ (setByte_keeps_wf _ h hfst) ha, memRead_setByte _ h hfst]

/-- R31, R32: the fetch puts the byte at `pc` before the byte at `pc + 1`. -/
theorem fetchWord_of_reads {s : State} {hi lo : Byte} (hhi : memRead s.mem s.pc.toNat = .ok hi)
    (hlo : memRead s.mem (s.pc.toNat + 1) = .ok lo) : fetchWord s = .ok (wordOfBytes hi lo) := by
  simp [fetchWord, hhi, hlo]

/-- Settles O11: a fetch is the word of the two bytes read, and the loader puts the two bytes of the opcode. -/
theorem fetchAndLoaderAreBigEndian : Obligations.FetchAndLoaderAreBigEndian := by
  unfold Obligations.FetchAndLoaderAreBigEndian
  constructor
  · intro s hi lo hhi hlo
    exact ⟨wordOfBytes hi lo, fetchWord_of_reads hhi hlo, wordOfBytes_toNat hi lo⟩
  · intro m a op hwf ha
    have hread := memRead_placeWord op hwf (Nat.lt_succ_of_le ha)
    refine ⟨highByte op, lowByte op, ?high, ?low, toNat_bytes op, ?frame⟩
    case high => simp [hread]
    case low => simp [hread]
    case frame =>
      intro k hfst hsnd
      rw [hread, if_neg hsnd, if_neg hfst]

end Sys2Proof.Machine
end

section
/-! PROOFS of the encoding family (spec/30_encoding.md): the operands of a decoded instruction are the fields of its word. -/

namespace Sys2Proof

/-- The instruction of the same mnemonic whose operands are the fields of `op` (R42, R43). -/
def Instr.withFieldsOf (op : Word) : Instr → Instr
  | .halt => .halt
  | .clear => .clear
  | .ret => .ret
  | .jump _ => .jump (nnnOf op)
  | .call _ => .call (nnnOf op)
  | .skipEqImm _ _ => .skipEqImm (xOf op) (kkOf op)
  | .skipNeImm _ _ => .skipNeImm (xOf op) (kkOf op)
  | .skipEqReg _ _ => .skipEqReg (xOf op) (yOf op)
  | .loadImm _ _ => .loadImm (xOf op) (kkOf op)
  | .addImm _ _ => .addImm (xOf op) (kkOf op)
  | .loadReg _ _ => .loadReg (xOf op) (yOf op)
  | .orReg _ _ => .orReg (xOf op) (yOf op)
  | .andReg _ _ => .andReg (xOf op) (yOf op)
  | .xorReg _ _ => .xorReg (xOf op) (yOf op)
  | .addCarry _ _ => .addCarry (xOf op) (yOf op)

section
variable {op : Word} {i : Instr}

theorem withFieldsOf_of_decodeFixed (h : decodeFixed op = .ok i) : i.withFieldsOf op = i := by
  unfold decodeFixed at h
  split_ifs at h <;> cases h <;> rfl

theorem withFieldsOf_of_decodeAlu (h : decodeAlu op = .ok i) : i.withFieldsOf op = i := by
  unfold decodeAlu at h
  split at h <;> cases h <;> rfl

/-- R42: reading the operands of a decoded instruction from its word again changes none of them. -/
theorem withFieldsOf_of_decode (h : decode op = .ok i) : i.withFieldsOf op = i := by
  unfold decode at h
  split at h
  case h_1 => exact withFieldsOf_of_decodeFixed h
  case h_6 => split_ifs at h; cases h; rfl
  case h_9 => exact withFieldsOf_of_decodeAlu h
  all_goals cases h <;> rfl

end

namespace Machine

/-- Settles O8: the fields are slices of the word, and a decoded instruction is the one whose operands are those fields. -/
theorem operandFieldsAreTheOpcodeBits : Obligations.OperandFieldsAreTheOpcodeBits := by
  unfold Obligations.OperandFieldsAreTheOpcodeBits
  constructor
  · intro op
    exact ⟨xOf_val op, yOf_val op, kkOf_toNat op, nnnOf_toNat op, subOf_toNat op, majorOf_toNat op⟩
  · intro op i h
    rw [← withFieldsOf_of_decode h]
    cases i with
    | halt | clear | ret => trivial
    | jump | call => exact nnnOf_toNat op
    | skipEqImm | skipNeImm | loadImm | addImm => exact ⟨xOf_val op, kkOf_toNat op⟩
    | skipEqReg | loadReg | orReg | andReg | xorReg | addCarry => exact ⟨xOf_val op, yOf_val op⟩

end Machine

end Sys2Proof
end

section
/-! PROOFS of the system and control-transfer family (spec/40_system_and_flow.md): JUMP and CLEAR, from the frames of the state
updates they make and the step that runs a decoded instruction. -/

namespace Sys2Proof

/-- R47: major opcode 1 is JUMP. -/
theorem decode_of_majorOf_one {op : Word} (h : (majorOf op).toNat = 1) : decode op = .ok (.jump (nnnOf op)) := by
  simp only [decode, h]

namespace Machine

/-- Loading the program counter changes nothing else. -/
theorem onlyPc_setPc (s : State) (w : Word) : s.onlyPc (s.setPc w) := by
  refine ⟨?regs, setPc_sp s w, ?entries, setPc_status s w, ?mem⟩
  case regs => exact fun i _ => setPc_reg s i w
  case entries => exact fun j => setPc_stackAt s j w
  case mem => exact fun _ => by rw [setPc_mem]

/-- A state differs from itself in no register and in nothing else. -/
theorem onlyRegs_refl (s : State) (w : List RegIdx) : s.onlyRegs w s :=
  ⟨fun _ _ => rfl, rfl, rfl, fun _ => rfl, rfl, fun _ => rfl⟩

theorem exec_jump (nnn : Addr12) (s : State) : exec (.jump nnn) s = .next (s.setPc (zext16 nnn)) := rfl

theorem exec_clear (s : State) : exec .clear s = .next s := rfl

/-- R45: a running machine that fetches an instruction's word executes it with `pc` advanced. -/
theorem step_of_decode {s : State} {op : Word} {i : Instr} (hs : s.status = .running) (hf : fetchWord s = .ok op)
    (hd : decode op = .ok i) : step s = exec i (advance s) := by
  rw [step_of_fetch hs hf]
  simp only [dispatchWord, hd]

/-- Settles O18: the row's mask fixes the major opcode 1, and executing JUMP is one write of `pc`, the address zero-extended. -/
theorem jumpLoadsTheAddress : Obligations.JumpLoadsTheAddress := by
  unfold Obligations.JumpLoadsTheAddress
  constructor
  · intro op hrow
    exact decode_of_majorOf_one (majorOf_of_mask op hrow)
  · intro nnn s
    exact ⟨s.setPc (zext16 nnn), exec_jump nnn s, zext16_toNat nnn, onlyPc_setPc s _⟩

/-- Settles O15: executing CLEAR answers the state it is given, and its step gives it the state with `pc` advanced. -/
theorem clearChangesNothing : Obligations.ClearChangesNothing := by
  unfold Obligations.ClearChangesNothing
  have hdecode : decode 0x00E0#16 = .ok .clear := by decide
  refine ⟨hdecode, ?exec, ?step⟩
  case exec => exact fun s => ⟨s, exec_clear s, onlyRegs_refl s []⟩
  case step =>
    intro s hs hf
    calc step s = exec .clear (advance s) := step_of_decode hs hf hdecode
      _ = .next (advance s) := exec_clear _
      _ = .next (s.setPc (s.pc + 2#16)) := rfl

end Machine

end Sys2Proof
end

section
/-! PROOFS of the skip family (spec/41_skip.md): the decode rows of the major opcodes 3, 4 and 5, and what the one operation
all three skips make does to the state. -/

namespace Sys2Proof

section
variable {op : Word}

/-- R47: major opcode 3 is SKIP-EQ-IMM. -/
theorem decode_of_majorOf_three (h : (majorOf op).toNat = 3) : decode op = .ok (.skipEqImm (xOf op) (kkOf op)) := by
  simp only [decode, h]

/-- R47: major opcode 4 is SKIP-NE-IMM. -/
theorem decode_of_majorOf_four (h : (majorOf op).toNat = 4) : decode op = .ok (.skipNeImm (xOf op) (kkOf op)) := by
  simp only [decode, h]

/-- R47, R48: major opcode 5 is SKIP-EQ-REG where the sub-opcode is 0, and unimplemented elsewhere. -/
theorem decode_of_majorOf_five (h : (majorOf op).toNat = 5) :
    decode op = if subOf op = 0#4 then .ok (.skipEqReg (xOf op) (yOf op)) else .error (.unimplemented op) := by
  simp only [decode, h]

/-- The mask `0x000F` keeps the last nibble. -/
theorem and_000F_toNat (op : Word) : (op &&& 0x000F#16).toNat = op.toNat % 16 := by
  rw [BitVec.toNat_and]
  exact Nat.and_two_pow_sub_one_eq_mod op.toNat 4

/-- A sub-opcode is 0 when the mask of the last nibble leaves nothing. -/
theorem and_000F_eq_zero_of_subOf (h : subOf op = 0#4) : op &&& 0x000F#16 = 0x0000#16 := by
  apply BitVec.eq_of_toNat_eq
  rw [and_000F_toNat, ← subOf_toNat, h]
  rfl

end

namespace Machine

/-- A state differs from itself neither in the program counter nor in anything else. -/
theorem onlyPc_refl (s : State) : s.onlyPc s := ⟨fun _ _ => rfl, rfl, fun _ => rfl, rfl, fun _ => rfl⟩

theorem onlyPc_advance (s : State) : s.onlyPc (advance s) := onlyPc_setPc s _

/-- R61: a skip on a condition `p` adds 2 to `pc` exactly when `p` holds, and changes nothing else. -/
theorem skipIf_effect {c : Bool} {p : Prop} [Decidable p] (hc : c = true ↔ p) (s : State) :
    ∃ t : State, skipIf c s = .next t ∧ t.pc = (if p then s.pc + 2#16 else s.pc) ∧ s.onlyPc t := by
  rw [skipIf_eq]
  by_cases hp : p
  · rw [if_pos (hc.mpr hp), if_pos hp]
    exact ⟨advance s, rfl, advance_pc s, onlyPc_advance s⟩
  · rw [if_neg (mt hc.mp hp), if_neg hp]
    exact ⟨s, rfl, rfl, onlyPc_refl s⟩

section
variable (x y : RegIdx) (kk : Byte) (s : State)

theorem exec_skipEqImm : exec (.skipEqImm x kk) s = skipIf (s.reg x == kk) s := rfl

theorem exec_skipNeImm : exec (.skipNeImm x kk) s = skipIf (s.reg x != kk) s := rfl

theorem exec_skipEqReg : exec (.skipEqReg x y) s = skipIf (s.reg x == s.reg y) s := rfl

end

/-- Settles O23: the row's mask fixes the major opcode 3, and executing it is a skip on equality of register and byte. -/
theorem skipEqImmSkipsOnEqual : Obligations.SkipEqImmSkipsOnEqual := by
  unfold Obligations.SkipEqImmSkipsOnEqual
  constructor
  · intro op hrow
    exact decode_of_majorOf_three (majorOf_of_mask op hrow)
  · intro x kk s
    rw [exec_skipEqImm]
    exact skipIf_effect beq_iff_eq s

/-- Settles O24: the row's mask fixes the major opcode 4, executing it is a skip on inequality of register and byte, and of the two
opposite conditions exactly one adds 2 to `pc`. -/
theorem skipNeImmSkipsOnUnequal : Obligations.SkipNeImmSkipsOnUnequal := by
  unfold Obligations.SkipNeImmSkipsOnUnequal
  constructor
  · intro op hrow
    exact decode_of_majorOf_four (majorOf_of_mask op hrow)
  · intro x kk s
    rw [exec_skipNeImm, exec_skipEqImm]
    obtain ⟨t, ht, htpc, hframe⟩ := skipIf_effect (bne_iff_ne (a := s.reg x) (b := kk)) s
    obtain ⟨u, hu, hupc, -⟩ := skipIf_effect (beq_iff_eq (a := s.reg x) (b := kk)) s
    refine ⟨t, u, ht, htpc, hframe, hu, ?_⟩
    have hne : s.pc + 2#16 ≠ s.pc := by simp
    rw [htpc, hupc]
    by_cases heq : s.reg x = kk
    · rw [if_pos heq, if_neg (not_not.mpr heq)]
      exact iff_of_false hne (not_not.mpr rfl)
    · rw [if_neg heq, if_pos heq]
      exact iff_of_true rfl hne

/-- Settles O25: the major opcode 5 decodes by its sub-opcode, which the row's mask fixes to 0, and executing SKIP-EQ-REG is a skip
on equality of the two registers. -/
theorem skipEqRegSkipsOnEqual : Obligations.SkipEqRegSkipsOnEqual := by
  unfold Obligations.SkipEqRegSkipsOnEqual
  refine ⟨?row, ?otherNibbles, ?effect⟩
  case row =>
    intro op hrow
    obtain ⟨hmajor, hsub⟩ := majorOf_subOf_of_mask op hrow
    rw [decode_of_majorOf_five hmajor, if_pos (BitVec.eq_of_toNat_eq hsub)]
  case otherNibbles =>
    intro op hrow hnibble
    have hsub : subOf op ≠ 0#4 := mt and_000F_eq_zero_of_subOf hnibble
    rw [decode_of_majorOf_five (majorOf_of_mask op hrow), if_neg hsub]
  case effect =>
    intro x y s
    rw [exec_skipEqReg]
    exact skipIf_effect beq_iff_eq s

end Machine

end Sys2Proof
end

section
/-! PROOFS of the immediate family (spec/42_immediate.md): the decode rows of the major opcodes 6 and 7, and the one register write
both instructions make, with its frame. -/

namespace Sys2Proof

section
variable {op : Word}

/-- R47: major opcode 6 is LOAD-IMM. -/
theorem decode_of_majorOf_six (h : (majorOf op).toNat = 6) : decode op = .ok (.loadImm (xOf op) (kkOf op)) := by
  simp only [decode, h]

/-- R47: major opcode 7 is ADD-IMM. -/
theorem decode_of_majorOf_seven (h : (majorOf op).toNat = 7) : decode op = .ok (.addImm (xOf op) (kkOf op)) := by
  simp only [decode, h]

end

namespace Machine

/-- A register that was just written holds the byte written. -/
theorem reg_setReg_same (s : State) (i : RegIdx) (b : Byte) : (s.setReg i b).reg i = b := by
  rw [reg_setReg, if_pos rfl]

/-- Writing one more of the registers that may change keeps the frame. -/
theorem setReg_keeps_onlyRegs {s t : State} {w : List RegIdx} {i : RegIdx} (b : Byte) (h : s.onlyRegs w t) (hi : i ∈ w) :
    s.onlyRegs w (t.setReg i b) := by
  obtain ⟨hregs, hrest⟩ := h
  refine ⟨?regs, hrest⟩
  intro k hk
  have hne : k ≠ i := fun heq => hk (heq ▸ hi)
  rw [reg_setReg, if_neg hne, hregs k hk]

/-- Writing a register changes that register and nothing else. -/
theorem onlyRegs_setReg (s : State) (i : RegIdx) (b : Byte) : s.onlyRegs [i] (s.setReg i b) :=
  setReg_keeps_onlyRegs b (onlyRegs_refl s [i]) (List.mem_singleton_self i)

section
variable (x : RegIdx) (kk : Byte) (s : State)

theorem exec_loadImm : exec (.loadImm x kk) s = .next (s.setReg x kk) := rfl

theorem exec_addImm : exec (.addImm x kk) s = .next (s.setReg x (add8 (s.reg x) kk)) := rfl

end

/-- Settles O27: the row's mask fixes the major opcode 6, and executing LOAD-IMM is one write of `V[x]`, the byte unchanged. -/
theorem loadImmSetsTheRegister : Obligations.LoadImmSetsTheRegister := by
  unfold Obligations.LoadImmSetsTheRegister
  constructor
  · intro op hrow
    exact decode_of_majorOf_six (majorOf_of_mask op hrow)
  · intro x kk s
    exact ⟨s.setReg x kk, exec_loadImm x kk s, reg_setReg_same s x kk, onlyRegs_setReg s x kk⟩

/-- Settles O28: the row's mask fixes the major opcode 7, and executing ADD-IMM is one write of `V[x]`, the sum modulo 256; the
frame of that write holds VF too, unless VF is `V[x]`. -/
theorem addImmWrapsWithoutFlag : Obligations.AddImmWrapsWithoutFlag := by
  unfold Obligations.AddImmWrapsWithoutFlag
  constructor
  · intro op hrow
    exact decode_of_majorOf_seven (majorOf_of_mask op hrow)
  · intro x kk s
    refine ⟨s.setReg x (add8 (s.reg x) kk), exec_addImm x kk s, ?sum, onlyRegs_setReg s x _⟩
    rw [reg_setReg_same, add8_toNat]

end Machine

end Sys2Proof
end

section
/-! PROOFS of the ALU family (spec/43_alu.md): the decode rows of the major opcode 8, by the sub-opcode, and the one register write
LOAD-REG, OR, AND and XOR make, with its result and its frame. -/

namespace Sys2Proof

section
variable {op : Word}

/-- R47: major opcode 8 decodes by its sub-opcode. -/
theorem decode_of_majorOf_eight (h : (majorOf op).toNat = 8) : decode op = decodeAlu op := by
  simp only [decode, h]

/-- R47: a word in a row of the ALU has major opcode 8, so the sub-opcode the row fixes selects its instruction. -/
theorem decode_of_aluMask {p : Word} (hrow : op &&& 0xF00F#16 = p) (hp : p.toNat / 4096 = 8) :
    decode op = decodeAlu op ∧ (subOf op).toNat = p.toNat % 16 := by
  obtain ⟨hmajor, hsub⟩ := majorOf_subOf_of_mask op hrow
  exact ⟨decode_of_majorOf_eight (hmajor.trans hp), hsub⟩

theorem decodeAlu_of_subOf_zero (h : (subOf op).toNat = 0) : decodeAlu op = .ok (.loadReg (xOf op) (yOf op)) := by
  simp only [decodeAlu, h]

theorem decodeAlu_of_subOf_one (h : (subOf op).toNat = 1) : decodeAlu op = .ok (.orReg (xOf op) (yOf op)) := by
  simp only [decodeAlu, h]

theorem decodeAlu_of_subOf_two (h : (subOf op).toNat = 2) : decodeAlu op = .ok (.andReg (xOf op) (yOf op)) := by
  simp only [decodeAlu, h]

theorem decodeAlu_of_subOf_three (h : (subOf op).toNat = 3) : decodeAlu op = .ok (.xorReg (xOf op) (yOf op)) := by
  simp only [decodeAlu, h]

end

namespace Machine

section
variable (x y : RegIdx) (s : State)

/-- R64: the destination register holds the ALU's result on the operands as they were before the write. -/
theorem reg_aluToReg_same (fn : AluFn) : (aluToReg fn x y s).reg x = aluResult fn (s.reg x) (s.reg y) :=
  reg_setReg_same s x _

/-- R64: the ALU's write to `V[x]` changes no other register, VF included, and nothing else. -/
theorem onlyRegs_aluToReg (fn : AluFn) : s.onlyRegs [x] (aluToReg fn x y s) := onlyRegs_setReg s x _

theorem exec_loadReg : exec (.loadReg x y) s = .next (aluToReg .pass x y s) := rfl

theorem exec_orReg : exec (.orReg x y) s = .next (aluToReg .or x y s) := rfl

theorem exec_andReg : exec (.andReg x y) s = .next (aluToReg .and x y s) := rfl

theorem exec_xorReg : exec (.xorReg x y) s = .next (aluToReg .xor x y s) := rfl

end

/-- Settles O29: the row's mask fixes major opcode 8 and sub-opcode 0, and executing LOAD-REG writes the ALU's second operand, passed
through, to `V[x]`. -/
theorem loadRegCopiesTheRegister : Obligations.LoadRegCopiesTheRegister := by
  unfold Obligations.LoadRegCopiesTheRegister
  constructor
  · intro op hrow
    obtain ⟨hdecode, hsub⟩ := decode_of_aluMask hrow rfl
    rw [hdecode, decodeAlu_of_subOf_zero hsub]
  · intro x y s
    exact ⟨_, exec_loadReg x y s, reg_aluToReg_same x y s .pass, onlyRegs_aluToReg x y s .pass⟩

/-- Settles O30: the row's mask fixes major opcode 8 and sub-opcode 1, and executing OR is the ALU's one write of `V[x]`, whose frame
holds VF too, unless VF is `V[x]`. -/
theorem orSetsTheRegisterOnly : Obligations.OrSetsTheRegisterOnly := by
  unfold Obligations.OrSetsTheRegisterOnly
  constructor
  · intro op hrow
    obtain ⟨hdecode, hsub⟩ := decode_of_aluMask hrow rfl
    rw [hdecode, decodeAlu_of_subOf_one hsub]
  · intro x y s
    exact ⟨_, exec_orReg x y s, reg_aluToReg_same x y s .or, onlyRegs_aluToReg x y s .or⟩

/-- Settles O31: the row's mask fixes major opcode 8 and sub-opcode 2, and executing AND is the ALU's one write of `V[x]`, whose frame
holds VF too, unless VF is `V[x]`. -/
theorem andSetsTheRegisterOnly : Obligations.AndSetsTheRegisterOnly := by
  unfold Obligations.AndSetsTheRegisterOnly
  constructor
  · intro op hrow
    obtain ⟨hdecode, hsub⟩ := decode_of_aluMask hrow rfl
    rw [hdecode, decodeAlu_of_subOf_two hsub]
  · intro x y s
    exact ⟨_, exec_andReg x y s, reg_aluToReg_same x y s .and, onlyRegs_aluToReg x y s .and⟩

/-- Settles O32: the row's mask fixes major opcode 8 and sub-opcode 3, and executing XOR is the ALU's one write of `V[x]`, whose frame
holds VF too, unless VF is `V[x]`. -/
theorem xorSetsTheRegisterOnly : Obligations.XorSetsTheRegisterOnly := by
  unfold Obligations.XorSetsTheRegisterOnly
  constructor
  · intro op hrow
    obtain ⟨hdecode, hsub⟩ := decode_of_aluMask hrow rfl
    rw [hdecode, decodeAlu_of_subOf_three hsub]
  · intro x y s
    exact ⟨_, exec_xorReg x y s, reg_aluToReg_same x y s .xor, onlyRegs_aluToReg x y s .xor⟩

end Machine

end Sys2Proof
end

section
/-! PROOFS of the encoder and the opcode map (spec/30_encoding.md R43, R46 to R48): the fields of an encoded word, the two halves of
the round trip, and which words the map's rows select. -/

namespace Sys2Proof

section
variable (h n : BitVec 4) (nnn : Addr12) (x y : RegIdx) (kk : Byte)

@[simp] theorem majorOf_formatNNN : majorOf (formatNNN h nnn) = h := by
  have := nnn.isLt
  apply BitVec.eq_of_toNat_eq
  rw [majorOf_toNat, formatNNN_toNat]; omega

@[simp] theorem nnnOf_formatNNN : nnnOf (formatNNN h nnn) = nnn := by
  have := nnn.isLt
  apply BitVec.eq_of_toNat_eq
  rw [nnnOf_toNat, formatNNN_toNat]; omega

@[simp] theorem majorOf_formatXKK : majorOf (formatXKK h x kk) = h := by
  have := kk.isLt
  apply BitVec.eq_of_toNat_eq
  rw [majorOf_toNat, formatXKK_toNat]; omega

@[simp] theorem xOf_formatXKK : xOf (formatXKK h x kk) = x := by
  have := kk.isLt
  apply Fin.ext
  rw [xOf_val, formatXKK_toNat]; omega

@[simp] theorem kkOf_formatXKK : kkOf (formatXKK h x kk) = kk := by
  have := kk.isLt
  apply BitVec.eq_of_toNat_eq
  rw [kkOf_toNat, formatXKK_toNat]; omega

@[simp] theorem majorOf_formatXYN : majorOf (formatXYN h x y n) = h := by
  have := n.isLt
  apply BitVec.eq_of_toNat_eq
  rw [majorOf_toNat, formatXYN_toNat]; omega

@[simp] theorem xOf_formatXYN : xOf (formatXYN h x y n) = x := by
  have := n.isLt
  apply Fin.ext
  rw [xOf_val, formatXYN_toNat]; omega

@[simp] theorem yOf_formatXYN : yOf (formatXYN h x y n) = y := by
  have := n.isLt
  apply Fin.ext
  rw [yOf_val, formatXYN_toNat]; omega

@[simp] theorem subOf_formatXYN : subOf (formatXYN h x y n) = n := by
  have := n.isLt
  apply BitVec.eq_of_toNat_eq
  rw [subOf_toNat, formatXYN_toNat]; omega

end

/-- R43, R47: the major opcode of an encoded word selects its format's row, and the format's fields are its operands. -/
theorem decode_encode (i : Instr) : decode (encode i) = .ok i := by
  cases i with
  | halt | clear | ret => decide
  | jump | call => simp [encode, decode]
  | skipEqImm | skipNeImm | loadImm | addImm => simp [encode, decode]
  | skipEqReg => simp [encode, decode]
  | loadReg | orReg | andReg | xorReg | addCarry => simp [encode, decode, decodeAlu]

section
variable {op : Word} {i : Instr} {h n : BitVec 4}

/-- A word is its major opcode followed by its address field. -/
theorem formatNNN_nnnOf (hmajor : (majorOf op).toNat = h.toNat) : formatNNN h (nnnOf op) = op := by
  rw [majorOf_toNat] at hmajor
  apply BitVec.eq_of_toNat_eq
  rw [formatNNN_toNat, nnnOf_toNat]; omega

/-- A word is its major opcode followed by its register and byte fields. -/
theorem formatXKK_fields (hmajor : (majorOf op).toNat = h.toNat) : formatXKK h (xOf op) (kkOf op) = op := by
  rw [majorOf_toNat] at hmajor
  apply BitVec.eq_of_toNat_eq
  rw [formatXKK_toNat, xOf_val, kkOf_toNat]; omega

/-- A word is its major opcode followed by its two register fields and its sub-opcode. -/
theorem formatXYN_fields (hmajor : (majorOf op).toNat = h.toNat) (hsub : (subOf op).toNat = n.toNat) :
    formatXYN h (xOf op) (yOf op) n = op := by
  rw [majorOf_toNat] at hmajor
  rw [subOf_toNat] at hsub
  apply BitVec.eq_of_toNat_eq
  rw [formatXYN_toNat, xOf_val, yOf_val]; omega

theorem encode_of_decodeFixed (hd : decodeFixed op = .ok i) : encode i = op := by
  unfold decodeFixed at hd
  split_ifs at hd with hop hop hop <;> cases hd <;> exact hop.symm

theorem encode_of_decodeAlu (hmajor : (majorOf op).toNat = 8) (hd : decodeAlu op = .ok i) : encode i = op := by
  unfold decodeAlu at hd
  split at hd <;> cases hd
  all_goals exact formatXYN_fields hmajor ‹_›

/-- R43, R47: what a word decodes to has the word's own major opcode and fields. -/
theorem encode_of_decode (hd : decode op = .ok i) : encode i = op := by
  unfold decode at hd
  split at hd
  case h_1 => exact encode_of_decodeFixed hd
  case h_2 hmajor | h_3 hmajor => cases hd; exact formatNNN_nnnOf hmajor
  case h_4 hmajor | h_5 hmajor | h_7 hmajor | h_8 hmajor => cases hd; exact formatXKK_fields hmajor
  case h_6 hmajor =>
    split_ifs at hd with hsub
    cases hd
    exact formatXYN_fields hmajor (congrArg BitVec.toNat hsub)
  case h_9 hmajor => exact encode_of_decodeAlu hmajor hd
  case h_10 => cases hd

/-- Decoding and encoding are inverse to each other. -/
theorem decode_eq_ok_iff : decode op = .ok i ↔ encode i = op :=
  ⟨encode_of_decode, fun he => he ▸ decode_encode i⟩

end

namespace Machine

/-- Settles O4: each instruction's format gives its own fields back. -/
theorem encodeThenDecodeGivesTheInstruction : Obligations.EncodeThenDecodeGivesTheInstruction := by
  unfold Obligations.EncodeThenDecodeGivesTheInstruction
  exact decode_encode

/-- Settles O5: each branch of the decoder keeps every bit of the word, in the opcode or in a field. -/
theorem decodeThenEncodeGivesTheWord : Obligations.DecodeThenEncodeGivesTheWord := by
  unfold Obligations.DecodeThenEncodeGivesTheWord
  exact fun _ _ => encode_of_decode

/-- Settles O9: the decoder evaluated on each of the words. -/
theorem specExampleWordsDecode : Obligations.SpecExampleWordsDecode := by
  unfold Obligations.SpecExampleWordsDecode
  decide

end Machine

end Sys2Proof
end

section
/-! PROOFS of the opcode map (spec/30_encoding.md R46 to R48): a row selects exactly the words that decode to its mnemonic. -/

namespace Sys2Proof

/-- R47: every instruction's word lies in the row of its own mnemonic. -/
theorem encode_in_row : ∀ i : Instr, Laws.EncodingRow.Statement i
  | .halt => Laws.EncodingRow.halt
  | .clear => Laws.EncodingRow.clear
  | .ret => Laws.EncodingRow.ret
  | .jump nnn => Laws.EncodingRow.jump nnn
  | .call nnn => Laws.EncodingRow.call nnn
  | .skipEqImm x kk => Laws.EncodingRow.skipEqImm x kk
  | .skipNeImm x kk => Laws.EncodingRow.skipNeImm x kk
  | .skipEqReg x y => Laws.EncodingRow.skipEqReg x y
  | .loadImm x kk => Laws.EncodingRow.loadImm x kk
  | .addImm x kk => Laws.EncodingRow.addImm x kk
  | .loadReg x y => Laws.EncodingRow.loadReg x y
  | .orReg x y => Laws.EncodingRow.orReg x y
  | .andReg x y => Laws.EncodingRow.andReg x y
  | .xorReg x y => Laws.EncodingRow.xorReg x y
  | .addCarry x y => Laws.EncodingRow.addCarry x y

section
variable {op : Word} {i : Instr} {r : OpcodeRow}

theorem matchesWord_iff : r.matchesWord op = true ↔ op &&& r.mask = r.pattern := beq_iff_eq

/-- R47: major opcode 2 is CALL. -/
theorem decode_of_majorOf_two (h : (majorOf op).toNat = 2) : decode op = .ok (.call (nnnOf op)) := by
  simp only [decode, h]

theorem decodeAlu_of_subOf_four (h : (subOf op).toNat = 4) : decodeAlu op = .ok (.addCarry (xOf op) (yOf op)) := by
  simp only [decodeAlu, h]

/-- R47: a word that decodes is selected by the row of its mnemonic. -/
theorem row_of_decode (hd : decode op = .ok i) : ∃ r ∈ opcodeMap, r.mnemonic = i.mnemonic ∧ op &&& r.mask = r.pattern := by
  obtain ⟨r, hr, hname, hmatch⟩ := encode_in_row i
  rw [encode_of_decode hd] at hmatch
  exact ⟨r, hr, hname, matchesWord_iff.mp hmatch⟩

/-- R47: a row whose mask keeps every bit selects its pattern only. -/
theorem eq_of_fullMask {p : Word} (h : op &&& 0xFFFF#16 = p) : op = p :=
  BitVec.and_allOnes.symm.trans h

/-- R47: a word a row selects decodes, to an instruction of the row's mnemonic. -/
theorem decode_of_row : ∀ r ∈ opcodeMap, ∀ op : Word, op &&& r.mask = r.pattern →
    ∃ i : Instr, decode op = .ok i ∧ i.mnemonic = r.mnemonic := by
  simp only [opcodeMap, List.cons_append, List.nil_append, List.forall_mem_cons]
  refine ⟨?halt, ?clear, ?ret, ?jump, ?call, ?skipEqImm, ?skipNeImm, ?skipEqReg, ?loadImm, ?addImm, ?loadReg, ?orReg, ?andReg,
    ?xorReg, ?addCarry, fun r hr => absurd hr List.not_mem_nil⟩
  all_goals intro op hrow
  case halt => obtain rfl := eq_of_fullMask hrow; exact ⟨.halt, by decide, rfl⟩
  case clear => obtain rfl := eq_of_fullMask hrow; exact ⟨.clear, by decide, rfl⟩
  case ret => obtain rfl := eq_of_fullMask hrow; exact ⟨.ret, by decide, rfl⟩
  case jump => exact ⟨_, decode_of_majorOf_one (majorOf_of_mask op hrow), rfl⟩
  case call => exact ⟨_, decode_of_majorOf_two (majorOf_of_mask op hrow), rfl⟩
  case skipEqImm => exact ⟨_, decode_of_majorOf_three (majorOf_of_mask op hrow), rfl⟩
  case skipNeImm => exact ⟨_, decode_of_majorOf_four (majorOf_of_mask op hrow), rfl⟩
  case skipEqReg =>
    obtain ⟨hmajor, hsub⟩ := majorOf_subOf_of_mask op hrow
    exact ⟨_, (decode_of_majorOf_five hmajor).trans (if_pos (BitVec.eq_of_toNat_eq hsub)), rfl⟩
  case loadImm => exact ⟨_, decode_of_majorOf_six (majorOf_of_mask op hrow), rfl⟩
  case addImm => exact ⟨_, decode_of_majorOf_seven (majorOf_of_mask op hrow), rfl⟩
  all_goals obtain ⟨halu, hsub⟩ := decode_of_aluMask hrow rfl
  case loadReg => exact ⟨_, halu.trans (decodeAlu_of_subOf_zero hsub), rfl⟩
  case orReg => exact ⟨_, halu.trans (decodeAlu_of_subOf_one hsub), rfl⟩
  case andReg => exact ⟨_, halu.trans (decodeAlu_of_subOf_two hsub), rfl⟩
  case xorReg => exact ⟨_, halu.trans (decodeAlu_of_subOf_three hsub), rfl⟩
  case addCarry => exact ⟨_, halu.trans (decodeAlu_of_subOf_four hsub), rfl⟩

/-- R48: a word no row selects is rejected as unimplemented. -/
theorem decode_of_no_row (h : ∀ r ∈ opcodeMap, op &&& r.mask ≠ r.pattern) : decode op = .error (.unimplemented op) := by
  cases hd : decode op with
  | ok i =>
    obtain ⟨r, hr, -, hrow⟩ := row_of_decode hd
    exact absurd hrow (h r hr)
  | error reject => rw [decode_error hd]

/-- R48: the words that are no opcode are those the decoder rejects. -/
theorem wellFormedWord_eq_false_iff : wellFormedWord op = false ↔ decode op = .error (.unimplemented op) := by
  simp only [wellFormedWord, List.any_eq_false, matchesWord_iff]
  refine ⟨decode_of_no_row, fun hreject r hr hrow => ?_⟩
  obtain ⟨i, hd, -⟩ := decode_of_row r hr op hrow
  rw [hd] at hreject
  cases hreject

/-- R47: CALL is exactly the major opcode 2. -/
theorem decode_call_iff : (∃ nnn, decode op = .ok (.call nnn)) ↔ op &&& 0xF000#16 = 0x2000#16 := by
  constructor
  · rintro ⟨nnn, hd⟩
    obtain rfl := encode_of_decode hd
    apply BitVec.eq_of_toNat_eq
    rw [and_F000_toNat]
    exact Laws.EncodingRow.formatNNN_in_row 0x2#4 nnn
  · intro hrow
    exact ⟨_, decode_of_majorOf_two (majorOf_of_mask op hrow)⟩

end

/-- A row of the map is found by its mnemonic. -/
theorem row_eq_of_mnemonic_eq : ∀ r ∈ opcodeMap, ∀ r' ∈ opcodeMap, r.mnemonic = r'.mnemonic → r = r' := by
  decide

namespace Machine

/-- Settles O6: a row's mask fixes what the decoder branches on, and every decoded word lies in the row of its own mnemonic. -/
theorem decodeAcceptsExactlyTheOpcodeMap : Obligations.DecodeAcceptsExactlyTheOpcodeMap := by
  unfold Obligations.DecodeAcceptsExactlyTheOpcodeMap
  exact ⟨decode_of_row, fun _ => decode_of_no_row⟩

/-- Settles O7: two rows that select one word bear the mnemonic of the one instruction it decodes to. -/
theorem opcodeMapRowsAreDisjoint : Obligations.OpcodeMapRowsAreDisjoint := by
  unfold Obligations.OpcodeMapRowsAreDisjoint
  intro r hr r' hr' op hrow hrow'
  obtain ⟨i, hd, hname⟩ := decode_of_row r hr op hrow
  obtain ⟨i', hd', hname'⟩ := decode_of_row r' hr' op hrow'
  obtain rfl : i = i' := by simpa [hd] using hd'
  exact row_eq_of_mnemonic_eq r hr r' hr' (hname.symm.trans hname')

end Machine

end Sys2Proof
end

section
/-! PROOFS of the system and stack instructions (spec/40_system_and_flow.md R52, R54, R56): what HALT, RETURN and CALL answer, by
the value of `sp`. -/

namespace Sys2Proof.Machine

/-- Setting the run status changes nothing else. -/
theorem onlyStatus_setStatus (s : State) (st : Status) : s.onlyStatus (s.setStatus st) :=
  ⟨fun _ _ => rfl, rfl, rfl, fun _ => rfl, fun _ => rfl⟩

section
variable {s : State} {j : Fin 16} (nnn : Addr12)

theorem exec_halt (s : State) : exec .halt s = .next (s.setStatus .halted) := rfl

theorem exec_ret_of_empty (h : s.sp = 0) : exec .ret s = .next (s.setStatus (.faulted .stackUnderflow)) := by
  rcases execReturn_cases s with ⟨-, e⟩ | ⟨k, n, hk, hn, e⟩
  · exact e
  · simp [h] at hk

theorem exec_ret_of_entry (h : s.sp = j.succ) : exec .ret s = .next ((s.setSp j.castSucc).setPc (s.stackAt j)) := by
  rcases execReturn_cases s with ⟨hempty, -⟩ | ⟨k, n, hk, hn, e⟩
  · simp [h] at hempty
  · obtain rfl : k = j := Fin.ext (by simpa [h] using hk)
    obtain rfl : n = k.castSucc := Fin.ext (by simpa [h] using hn)
    exact e

theorem exec_call_of_full (h : s.sp = Fin.last 16) :
    exec (.call nnn) s = .next (s.setStatus (.faulted .stackOverflow)) := by
  rcases execCall_cases nnn s with ⟨-, e⟩ | ⟨k, n, hk, hn, e⟩
  · exact e
  · have := k.isLt
    simp [hk, h] at this

theorem exec_call_of_room (h : s.sp = j.castSucc) :
    exec (.call nnn) s = .next (((s.setStackAt j s.pc).setSp j.succ).setPc (zext16 nnn)) := by
  rcases execCall_cases nnn s with ⟨hfull, -⟩ | ⟨k, n, hk, hn, e⟩
  · have hj : j.val = 16 := by simpa [h] using hfull
    omega
  · obtain rfl : k = j := Fin.ext (by simpa [h] using hk)
    obtain rfl : n = k.succ := Fin.ext (by simpa [h] using hn)
    exact e

end

/-- R23: a stack that is not full has a free entry, at `sp`. -/
theorem sp_eq_castSucc_of_lt {s : State} (h : s.sp.val < 16) : ∃ j : Fin 16, s.sp = j.castSucc :=
  ⟨⟨s.sp.val, h⟩, rfl⟩

/-- Settles O14: executing HALT is one write of the status. -/
theorem haltStopsTheRun : Obligations.HaltStopsTheRun := by
  unfold Obligations.HaltStopsTheRun
  refine ⟨by decide, fun s => ?_⟩
  exact ⟨_, exec_halt s, rfl, onlyStatus_setStatus s _⟩

/-- Settles O16: a RETURN that has an entry writes `sp` and `pc` only. -/
theorem returnPopsTheTopEntry : Obligations.ReturnPopsTheTopEntry := by
  unfold Obligations.ReturnPopsTheTopEntry
  refine ⟨by decide, fun s j hj => ?_⟩
  exact ⟨_, exec_ret_of_entry (Fin.ext hj.symm), rfl, rfl, fun _ _ => rfl, fun _ => rfl, rfl, fun _ => rfl⟩

/-- Settles O17: a RETURN with no entry raises the failure and writes nothing else. -/
theorem returnOnEmptyStackFaults : Obligations.ReturnOnEmptyStackFaults := by
  unfold Obligations.ReturnOnEmptyStackFaults
  intro s hsp
  exact ⟨_, exec_ret_of_empty hsp, rfl, onlyStatus_setStatus s _⟩

/-- Settles O19: the row's mask fixes the major opcode 2, and a CALL that has room writes the entry at `sp`, `sp` and `pc` only. -/
theorem callPushesTheReturnAddress : Obligations.CallPushesTheReturnAddress := by
  unfold Obligations.CallPushesTheReturnAddress
  constructor
  · intro op hrow
    exact decode_of_majorOf_two (majorOf_of_mask op hrow)
  · intro nnn s hroom
    obtain ⟨j, hsp⟩ := sp_eq_castSucc_of_lt hroom
    refine ⟨_, exec_call_of_room nnn hsp, ?sp, zext16_toNat nnn, ?entries, fun _ _ => rfl, rfl, fun _ => rfl⟩
    case sp => simp [hsp]
    case entries =>
      intro k
      simp [stackAt_setStackAt, hsp, Fin.ext_iff]

/-- Settles O20: a CALL with no room raises the failure and writes nothing else. -/
theorem callOnFullStackFaults : Obligations.CallOnFullStackFaults := by
  unfold Obligations.CallOnFullStackFaults
  intro nnn s hsp
  exact ⟨_, exec_call_of_full nnn (Fin.ext hsp), rfl, onlyStatus_setStatus s _⟩

/-- Settles O21: the CALL leaves `sp` just above the entry it wrote, so the RETURN reads that entry. -/
theorem callThenReturnRestoresPcAndSp : Obligations.CallThenReturnRestoresPcAndSp := by
  unfold Obligations.CallThenReturnRestoresPcAndSp
  intro nnn s hroom
  obtain ⟨j, hsp⟩ := sp_eq_castSucc_of_lt hroom
  refine ⟨_, exec_call_of_room nnn hsp, fun t' hsp' hentries => ?_⟩
  refine ⟨_, exec_ret_of_entry (j := j) hsp', ?pc, hsp.symm⟩
  case pc =>
    calc t'.stackAt j = (s.setStackAt j s.pc).stackAt j := hentries j
      _ = s.pc := by rw [stackAt_setStackAt, if_pos rfl]

section
variable {i : Instr} {rest : List Instr} {s t : State}

theorem execAll_cons_of_running (h : exec i s = .next t) (ht : t.status = .running) :
    execAll (i :: rest) s = execAll rest t := by
  simp [execAll, h, ht]

theorem execAll_cons_of_stopped (h : exec i s = .next t) (ht : t.status ≠ .running) : execAll (i :: rest) s = .next t := by
  simp [execAll, h, ht]

end

/-- A CALL with room leaves a running machine running, with one more entry. -/
theorem exec_call_sp_succ (nnn : Addr12) {s : State} (hs : s.status = .running) (hroom : s.sp.val < 16) :
    ∃ t : State, exec (.call nnn) s = .next t ∧ t.status = .running ∧ t.sp.val = s.sp.val + 1 := by
  obtain ⟨j, hsp⟩ := sp_eq_castSucc_of_lt hroom
  exact ⟨_, exec_call_of_room nnn hsp, hs, by simp [hsp]⟩

/-- Nested CALLs for which there is room all succeed. -/
theorem execAll_calls_of_room (targets : List Addr12) {s : State} (hs : s.status = .running)
    (hroom : s.sp.val + targets.length ≤ 16) : ∃ t : State, execAll (targets.map .call) s = .next t ∧
      t.status = .running ∧ t.sp.val = s.sp.val + targets.length := by
  induction targets generalizing s with
  | nil => exact ⟨s, rfl, hs, rfl⟩
  | cons nnn rest ih =>
    rw [List.length_cons] at hroom ⊢
    obtain ⟨t, hcall, ht, hsp⟩ := exec_call_sp_succ nnn hs (by omega)
    obtain ⟨u, hrest, hu, husp⟩ := ih ht (by omega)
    exact ⟨u, (execAll_cons_of_running hcall ht).trans hrest, hu, by omega⟩

/-- Of nested CALLs for which there is no room, the first that finds the stack full stops the machine. -/
theorem execAll_calls_of_no_room (targets : List Addr12) {s : State} (hs : s.status = .running)
    (hmany : 17 ≤ s.sp.val + targets.length) : ∃ t : State, execAll (targets.map .call) s = .next t ∧
      t.status = .faulted .stackOverflow ∧ t.sp.val = 16 := by
  induction targets generalizing s with
  | nil =>
    have := s.sp.isLt
    rw [List.length_nil] at hmany
    omega
  | cons nnn rest ih =>
    rw [List.length_cons] at hmany
    by_cases hroom : s.sp.val < 16
    · obtain ⟨t, hcall, ht, hsp⟩ := exec_call_sp_succ nnn hs hroom
      obtain ⟨u, hrest, hu⟩ := ih ht (by omega)
      exact ⟨u, (execAll_cons_of_running hcall ht).trans hrest, hu⟩
    · have hfull : s.sp.val = 16 := by omega
      exact ⟨_, execAll_cons_of_stopped (exec_call_of_full nnn (Fin.ext hfull)) (by simp), rfl, hfull⟩

/-- Settles O22: from `sp = 0` there is room for exactly sixteen CALLs. -/
theorem nestedCallsFillTheStackThenFault : Obligations.NestedCallsFillTheStackThenFault := by
  unfold Obligations.NestedCallsFillTheStackThenFault
  intro s targets hs hsp
  have hempty : s.sp.val = 0 := congrArg Fin.val hsp
  constructor
  · intro hfew
    obtain ⟨t, hrun, ht, htsp⟩ := execAll_calls_of_room targets hs (by omega)
    exact ⟨t, hrun, ht, by omega⟩
  · intro hmany
    exact execAll_calls_of_no_room targets hs (by omega)

end Sys2Proof.Machine
end

section
/-! PROOFS of ADD-CARRY (spec/43_alu.md R69, R70) and of the bitwise instructions on one register (spec/95_test_vectors.md L1-4). -/

namespace Sys2Proof.Machine

section
variable (x y : RegIdx) (s : State)

theorem exec_addCarry :
    exec (.addCarry x y) s = .next ((aluToReg .add x y s).setReg 15 (carryOut (s.reg x) (s.reg y))) := rfl

/-- R64, R71: the carry is written last, so a destination other than VF keeps the sum. -/
theorem reg_addCarry_of_ne {x : RegIdx} (hx : x ≠ 15) (c : Byte) :
    ((aluToReg .add x y s).setReg 15 c).reg x = add8 (s.reg x) (s.reg y) := by
  rw [reg_setReg, if_neg hx, reg_aluToReg_same, aluResult]

/-- ADD-CARRY's two writes change no other register and nothing else. -/
theorem onlyRegs_addCarry (c : Byte) : s.onlyRegs [x, 15] ((aluToReg .add x y s).setReg 15 c) :=
  setReg_keeps_onlyRegs c (setReg_keeps_onlyRegs _ (onlyRegs_refl s _) (by simp)) (by simp)

/-- Writing a register's own value changes nothing. -/
theorem setReg_reg : s.setReg x (s.reg x) = s := by
  simp [State.setReg, State.reg]

end

/-- R64: the carry is the part of the exact sum above the low byte. -/
theorem carryOut_toNat (a b : Byte) : (carryOut a b).toNat = (a.toNat + b.toNat) / 256 := by
  have hb := b.isLt
  unfold carryOut
  split_ifs with hcarry
  · change 1 = _; omega
  · change 0 = _; omega

/-- Settles O33: the row's mask fixes major opcode 8 and sub-opcode 4, and the last of ADD-CARRY's two writes is the carry. -/
theorem addCarrySetsSumAndCarry : Obligations.AddCarrySetsSumAndCarry := by
  unfold Obligations.AddCarrySetsSumAndCarry
  constructor
  · intro op hrow
    obtain ⟨hdecode, hsub⟩ := decode_of_aluMask hrow rfl
    rw [hdecode, decodeAlu_of_subOf_four hsub]
  · intro x y s
    refine ⟨_, exec_addCarry x y s, reg_setReg_same _ _ _, fun hx => ?sum, onlyRegs_addCarry x y s _⟩
    rw [reg_addCarry_of_ne y s hx, add8_toNat]

/-- Settles O34: the carry is the sum's quotient by 256 and `V[x]` its remainder. -/
theorem addCarrySumIsExact : Obligations.AddCarrySumIsExact := by
  unfold Obligations.AddCarrySumIsExact
  intro x y s t hx h
  rw [exec_addCarry] at h
  cases h
  rw [reg_setReg_same, reg_addCarry_of_ne y s hx, carryOut_toNat, add8_toNat]
  exact Nat.div_add_mod' _ 256

/-- Settles O35: the value OR and AND write is the one the register holds, and XOR's is zero. -/
theorem bitwiseOnOneRegister : Obligations.BitwiseOnOneRegister := by
  unfold Obligations.BitwiseOnOneRegister
  intro x s
  refine ⟨?or, ?and, _, exec_xorReg x x s, ?xor⟩
  case or => rw [exec_orReg, aluToReg, aluResult, BitVec.or_self, setReg_reg]
  case and => rw [exec_andReg, aluToReg, aluResult, BitVec.and_self, setReg_reg]
  case xor => rw [reg_aluToReg_same, aluResult, BitVec.xor_self]

end Sys2Proof.Machine
end

section
/-! PROOFS of the rules over all instructions (spec/10_state.md R15, R16, R20 to R23): what each kind of instruction can do to the
state, and from it what every instruction keeps. -/

namespace Sys2Proof.Machine

/-- R16: an instruction that names a destination register changes the registers of its write set and nothing else. -/
theorem exec_onlyRegs {i : Instr} {s t : State} (hw : i.writeSet ≠ []) (h : exec i s = .next t) :
    s.onlyRegs i.writeSet t := by
  cases i with
  | halt | clear | ret | jump | call | skipEqImm | skipNeImm | skipEqReg => exact absurd rfl hw
  | loadImm | addImm | loadReg | orReg | andReg | xorReg => cases h; exact onlyRegs_setReg s _ _
  | addCarry x y => cases h; exact onlyRegs_addCarry x y s _

/-- What executing an instruction can do to a state, by the kind of the instruction. -/
inductive Effect (s : State) : Instr → State → Prop
  | halt : Effect s .halt (s.setStatus .halted)
  | clear : Effect s .clear s
  | retEmpty : s.sp = 0 → Effect s .ret (s.setStatus (.faulted .stackUnderflow))
  | retEntry (j : Fin 16) : s.sp = j.succ → Effect s .ret ((s.setSp j.castSucc).setPc (s.stackAt j))
  | jump (nnn : Addr12) : Effect s (.jump nnn) (s.setPc (zext16 nnn))
  | callFull (nnn : Addr12) : s.sp = Fin.last 16 → Effect s (.call nnn) (s.setStatus (.faulted .stackOverflow))
  | callRoom (nnn : Addr12) (j : Fin 16) : s.sp = j.castSucc →
      Effect s (.call nnn) (((s.setStackAt j s.pc).setSp j.succ).setPc (zext16 nnn))
  | skip (i : Instr) (c : Bool) : i.writeSet = [] → Effect s i (if c then advance s else s)
  | write (i : Instr) (t : State) : i.writeSet ≠ [] → s.onlyRegs i.writeSet t → Effect s i t

/-- Executing an instruction has the effect of its kind. -/
theorem exec_effect {i : Instr} {s t : State} (h : exec i s = .next t) : Effect s i t := by
  by_cases hw : i.writeSet = []
  · cases i with
    | halt => cases h; exact .halt
    | clear => cases h; exact .clear
    | ret =>
      rcases Fin.eq_zero_or_eq_succ s.sp with hsp | ⟨j, hsp⟩
      · rw [exec_ret_of_empty hsp] at h; cases h; exact .retEmpty hsp
      · rw [exec_ret_of_entry hsp] at h; cases h; exact .retEntry j hsp
    | jump nnn => cases h; exact .jump nnn
    | call nnn =>
      rcases Fin.eq_castSucc_or_eq_last s.sp with ⟨j, hsp⟩ | hsp
      · rw [exec_call_of_room nnn hsp] at h; cases h; exact .callRoom nnn j hsp
      · rw [exec_call_of_full nnn hsp] at h; cases h; exact .callFull nnn hsp
    | skipEqImm | skipNeImm | skipEqReg => cases h; exact .skip _ _ hw
    | loadImm | addImm | loadReg | orReg | andReg | xorReg | addCarry => exact absurd hw (List.cons_ne_nil _ _)
  · exact .write i t hw (exec_onlyRegs hw h)

/-- R21, R23: executing with the advanced `pc` of a fetch keeps the invariant; only a RETURN loads `pc` from the stack, and its entry
is live. -/
theorem exec_keeps_inv {i : Instr} {s t : State} (hs : s.Inv) (hpc : s.pc.toNat ≤ 4096) (h : exec i s = .next t) : t.Inv := by
  obtain ⟨hmem, -, hlive⟩ := hs
  refine ⟨by rw [exec_keeps_mem h]; exact hmem, ?_⟩
  cases exec_effect h with
  | halt | clear | retEmpty | callFull => exact ⟨hpc.trans (by omega), hlive⟩
  | retEntry j hsp =>
    have hj : j.val < s.sp.val := by simp [hsp]
    exact ⟨(hlive j hj).trans (by omega), fun k hk => hlive k (lt_trans hk hj)⟩
  | jump nnn =>
    have := nnn.isLt
    refine ⟨?_, hlive⟩
    rw [setPc_pc, zext16_toNat]; omega
  | callRoom nnn j hsp =>
    have := nnn.isLt
    constructor
    · rw [setPc_pc, zext16_toNat]; omega
    · intro k hk
      rw [setPc_stackAt, setSp_stackAt, stackAt_setStackAt]
      split_ifs with hkj
      · exact hpc
      · have hbelow : k.val < j.val + 1 := hk
        have hne : k.val ≠ j.val := Fin.val_ne_of_ne hkj
        have hfree : s.sp.val = j.val := congrArg Fin.val hsp
        exact hlive k (by omega)
  | skip _ c =>
    cases c with
    | false => exact ⟨hpc.trans (by omega), hlive⟩
    | true =>
      refine ⟨?_, hlive⟩
      rw [if_pos rfl, advance_pc, BitVec.toNat_add]
      exact (Nat.mod_le _ _).trans (Nat.add_le_add_right hpc 2)
  | write _ _ _ hregs =>
    obtain ⟨-, hpc', hsp, hentries, -⟩ := hregs
    refine ⟨by rw [hpc']; omega, fun j hj => ?_⟩
    rw [hentries j]
    exact hlive j (hsp ▸ hj)

/-- Settles O3: a fetch that succeeds was at most at 4094, so the state an instruction executes in has `pc` at most 4096; a failing
step writes `pc` no further than that. -/
theorem everyStepKeepsInvariant : Obligations.EveryStepKeepsInvariant := by
  unfold Obligations.EveryStepKeepsInvariant
  intro s t hs h
  have hadvance : ∀ {op}, fetchWord s = .ok op → (advance s).Inv ∧ (advance s).pc.toNat ≤ 4096 := by
    intro op hf
    obtain ⟨hmem, -, hlive⟩ := hs
    obtain ⟨hfetched, hpc, -⟩ := fetched_pc hf
    rw [State.Inv, advance_pc, hpc]
    exact ⟨⟨hmem, by omega, hlive⟩, by omega⟩
  rcases step_cases h with ⟨-, ⟨f, -, rfl⟩ | ⟨op, hf, -, rfl⟩ | ⟨op, i, hf, -, hexec⟩⟩
  · exact hs
  · exact (hadvance hf).1
  · obtain ⟨hinv, hpc⟩ := hadvance hf
    exact exec_keeps_inv hinv hpc hexec

/-- R16: no register outside the write set changes. -/
theorem exec_regsSameBut {i : Instr} {s t : State} (h : exec i s = .next t) : s.regsSameBut i.writeSet t := by
  cases exec_effect h with
  | halt | clear | retEmpty | retEntry | jump | callFull | callRoom => exact fun _ _ => rfl
  | skip _ c => cases c <;> exact fun _ _ => rfl
  | write _ _ _ hregs => exact hregs.1

/-- Settles O37: every kind of instruction but the writes of a register leaves all registers. -/
theorem registersOutsideWriteSetUnchanged : Obligations.RegistersOutsideWriteSetUnchanged := by
  unfold Obligations.RegistersOutsideWriteSetUnchanged
  exact fun _ _ _ => exec_regsSameBut

/-- Settles O36: VF is in the write set of ADD-CARRY, and of another instruction only as its destination. -/
theorem onlyAddCarryWritesVfUnasked : Obligations.OnlyAddCarryWritesVfUnasked := by
  unfold Obligations.OnlyAddCarryWritesVfUnasked
  intro i s t h hvf
  have hmem : 15 ∈ i.writeSet := not_imp_comm.mp (exec_regsSameBut h 15) hvf
  cases i with
  | halt | clear | ret | jump | call | skipEqImm | skipNeImm | skipEqReg => exact absurd hmem List.not_mem_nil
  | addCarry x y => exact .inl ⟨x, y, rfl⟩
  | loadImm | addImm | loadReg | orReg | andReg | xorReg =>
    obtain rfl := List.mem_singleton.mp hmem
    simp

/-- Settles O39: `sp` and the entries are written by the effects of CALL and RETURN only, each one entry away. -/
theorem onlyCallWritesTheReturnStack : Obligations.OnlyCallWritesTheReturnStack := by
  unfold Obligations.OnlyCallWritesTheReturnStack
  intro i s t h
  cases exec_effect h with
  | halt | clear | retEmpty | jump | callFull => exact ⟨fun _ _ => rfl, .inl rfl⟩
  | retEntry j hsp => exact ⟨fun _ _ => rfl, .inr (.inr ⟨by simp [hsp], rfl⟩)⟩
  | callRoom nnn j hsp => exact ⟨fun hcall => absurd rfl (hcall nnn), .inr (.inl ⟨by simp [hsp], nnn, rfl⟩)⟩
  | skip _ c => cases c <;> exact ⟨fun _ _ => rfl, .inl rfl⟩
  | write _ _ _ hregs =>
    obtain ⟨-, -, hsp, hentries, -⟩ := hregs
    exact ⟨fun _ => hentries, .inl hsp⟩

end Sys2Proof.Machine
end

section
/-! PROOFS of what an instruction does not read (spec/10_state.md R16, R22; spec/20_memory.md R33): executing commutes with a change
of memory, of the return stack, and of the registers outside the read set. -/

namespace Sys2Proof.Machine

/-- A skip on the same condition commutes with a change of the state that leaves `pc` alone. -/
theorem skipIf_comm {f : State → State} (hf : ∀ s, advance (f s) = f (advance s)) {c c' : Bool} (hc : c' = c) {s t : State}
    (h : skipIf c s = .next t) : skipIf c' (f s) = .next (f t) := by
  subst hc
  cases c' with
  | false => cases h; rfl
  | true => cases h; exact congrArg Host.Outcome.next (hf s)

section
variable {i : Instr} {s t : State}

/-- No instruction reads memory (R33): with other memory it does the same. -/
theorem exec_setMem (m : Memory) (h : exec i s = .next t) : exec i (s.setMem m) = .next (t.setMem m) := by
  cases i with
  | ret =>
    rcases Fin.eq_zero_or_eq_succ s.sp with hsp | ⟨j, hsp⟩
    · rw [exec_ret_of_empty hsp] at h; cases h; exact exec_ret_of_empty hsp
    · rw [exec_ret_of_entry hsp] at h; cases h; exact exec_ret_of_entry (s := s.setMem m) hsp
  | call nnn =>
    rcases Fin.eq_castSucc_or_eq_last s.sp with ⟨j, hsp⟩ | hsp
    · rw [exec_call_of_room nnn hsp] at h; cases h; exact exec_call_of_room (s := s.setMem m) nnn hsp
    · rw [exec_call_of_full nnn hsp] at h; cases h; exact exec_call_of_full nnn hsp
  | skipEqImm | skipNeImm | skipEqReg => exact skipIf_comm (f := (·.setMem m)) (fun _ => rfl) rfl h
  | halt | clear | jump | loadImm | addImm | loadReg | orReg | andReg | xorReg | addCarry => cases h; rfl

/-- R22: an instruction that is no RETURN does the same with other stack entries. -/
theorem exec_withStack (w : Vector Word 16) (hi : i ≠ .ret) (h : exec i s = .next t) :
    ∃ w', exec i { s with stack := w } = .next { t with stack := w' } := by
  cases i with
  | ret => exact absurd rfl hi
  | call nnn =>
    rcases Fin.eq_castSucc_or_eq_last s.sp with ⟨j, hsp⟩ | hsp
    · rw [exec_call_of_room nnn hsp] at h; cases h
      exact ⟨w.set j s.pc, exec_call_of_room (s := { s with stack := w }) nnn hsp⟩
    · rw [exec_call_of_full nnn hsp] at h; cases h
      exact ⟨w, exec_call_of_full nnn hsp⟩
  | skipEqImm | skipNeImm | skipEqReg => exact ⟨w, skipIf_comm (f := ({ · with stack := w })) (fun _ => rfl) rfl h⟩
  | halt | clear | jump | loadImm | addImm | loadReg | orReg | andReg | xorReg | addCarry => cases h; exact ⟨w, rfl⟩

end

/-- Settles O40: executing commutes with a change of the entries. -/
theorem onlyReturnReadsTheReturnStack : Obligations.OnlyReturnReadsTheReturnStack := by
  unfold Obligations.OnlyReturnReadsTheReturnStack
  intro i s t w hi h
  obtain ⟨w', h'⟩ := exec_withStack w hi h
  exact ⟨_, h', rfl, rfl, rfl, rfl, rfl⟩

/-- The registers in `w` and everything that is no register hold in `t'` what they hold in `t`. -/
def State.sameOn (t : State) (w : List RegIdx) (t' : State) : Prop :=
  (∀ k ∈ w, t'.reg k = t.reg k) ∧ t'.pc = t.pc ∧ t'.stack = t.stack ∧ t'.sp = t.sp ∧ t'.status = t.status ∧ t'.mem = t.mem

theorem sameOn_withRegs (t : State) (v' : Vector Byte 16) : t.sameOn [] { t with v := v' } :=
  ⟨fun _ hk => absurd hk List.not_mem_nil, rfl, rfl, rfl, rfl, rfl⟩

/-- Writing one value to the same register on both sides makes them agree there too. -/
theorem sameOn_setReg {t t' : State} {w : List RegIdx} {i : RegIdx} {b b' : Byte} (h : t.sameOn w t') (hb : b' = b) :
    (t.setReg i b).sameOn (w ++ [i]) (t'.setReg i b') := by
  obtain ⟨hregs, hrest⟩ := h
  refine ⟨fun k hk => ?_, hrest⟩
  rw [reg_setReg, reg_setReg, hb]
  split_ifs with hki
  · rfl
  · exact hregs k (by simpa [hki] using hk)

/-- R16: with other registers outside the read set, an instruction has the same effect on its write set and outside the registers. -/
theorem exec_withRegs {i : Instr} {s t : State} {v' : Vector Byte 16} (hv : ∀ k ∈ i.readSet, v'[k] = s.reg k)
    (h : exec i s = .next t) : ∃ t' : State, exec i { s with v := v' } = .next t' ∧ t.sameOn i.writeSet t' := by
  cases i with
  | halt | clear | jump => cases h; exact ⟨_, rfl, sameOn_withRegs _ v'⟩
  | ret =>
    rcases Fin.eq_zero_or_eq_succ s.sp with hsp | ⟨j, hsp⟩
    · rw [exec_ret_of_empty hsp] at h; cases h
      exact ⟨_, exec_ret_of_empty hsp, sameOn_withRegs _ v'⟩
    · rw [exec_ret_of_entry hsp] at h; cases h
      exact ⟨_, exec_ret_of_entry (s := { s with v := v' }) hsp, sameOn_withRegs _ v'⟩
  | call nnn =>
    rcases Fin.eq_castSucc_or_eq_last s.sp with ⟨j, hsp⟩ | hsp
    · rw [exec_call_of_room nnn hsp] at h; cases h
      exact ⟨_, exec_call_of_room (s := { s with v := v' }) nnn hsp, sameOn_withRegs _ v'⟩
    · rw [exec_call_of_full nnn hsp] at h; cases h
      exact ⟨_, exec_call_of_full nnn hsp, sameOn_withRegs _ v'⟩
  | skipEqImm x kk =>
    have hx := hv x List.mem_cons_self
    exact ⟨_, skipIf_comm (f := ({ · with v := v' })) (fun _ => rfl) (congrArg (· == kk) hx) h, sameOn_withRegs t v'⟩
  | skipNeImm x kk =>
    have hx := hv x List.mem_cons_self
    exact ⟨_, skipIf_comm (f := ({ · with v := v' })) (fun _ => rfl) (congrArg (· != kk) hx) h, sameOn_withRegs t v'⟩
  | skipEqReg x y =>
    obtain ⟨hx, hrest⟩ := List.forall_mem_cons.mp hv
    have hy := hrest y List.mem_cons_self
    exact ⟨_, skipIf_comm (f := ({ · with v := v' })) (fun _ => rfl) (congrArg₂ (· == ·) hx hy) h, sameOn_withRegs t v'⟩
  | loadImm x kk => cases h; exact ⟨_, rfl, sameOn_setReg (sameOn_withRegs s v') rfl⟩
  | addImm x kk =>
    have hx := hv x List.mem_cons_self
    cases h; exact ⟨_, rfl, sameOn_setReg (sameOn_withRegs s v') (congrArg (add8 · kk) hx)⟩
  | loadReg x y =>
    have hy := hv y List.mem_cons_self
    cases h; exact ⟨_, rfl, sameOn_setReg (sameOn_withRegs s v') hy⟩
  | orReg x y | andReg x y | xorReg x y =>
    obtain ⟨hx, hrest⟩ := List.forall_mem_cons.mp hv
    have hy := hrest y List.mem_cons_self
    cases h; exact ⟨_, rfl, sameOn_setReg (sameOn_withRegs s v') (congrArg₂ (aluResult _) hx hy)⟩
  | addCarry x y =>
    obtain ⟨hx, hrest⟩ := List.forall_mem_cons.mp hv
    have hy := hrest y List.mem_cons_self
    have hsum := sameOn_setReg (i := x) (sameOn_withRegs s v') (congrArg₂ (aluResult .add) hx hy)
    cases h; exact ⟨_, rfl, sameOn_setReg hsum (congrArg₂ carryOut hx hy)⟩

/-- Settles O38: executing reads the registers of the read set only. -/
theorem effectDependsOnlyOnReadSet : Obligations.EffectDependsOnlyOnReadSet := by
  unfold Obligations.EffectDependsOnlyOnReadSet
  exact fun _ _ _ _ => exec_withRegs

end Sys2Proof.Machine
end

section
/-! PROOFS of the step (spec/30_encoding.md R45; spec/60_exceptions.md R72 to R75): what a step answers by the outcome of its fetch
and decode, when it stops the machine, and where it leaves `pc`. -/

namespace Sys2Proof.Machine

section
variable {s t : State} {op : Word} {f : Failure}

theorem fetchWord_error_iff : fetchWord s = .error f ↔
    (4095 < s.pc.toNat ∧ f = .outOfBounds s.pc.toNat) ∨ (s.pc.toNat = 4095 ∧ f = .outOfBounds 4096) := by
  rcases fetchWord_cases s with ⟨hpc, e⟩ | ⟨hpc, e⟩ | ⟨hpc, e⟩ <;> rw [e]
  · have hle : ¬ 4095 < s.pc.toNat := by omega
    have hne : s.pc.toNat ≠ 4095 := by omega
    simp [hle, hne]
  · simp [hpc, eq_comm]
  · have hne : s.pc.toNat ≠ 4095 := by omega
    simp [hpc, hne, eq_comm]

theorem step_of_fetch_error (hs : s.status = .running) (hf : fetchWord s = .error f) :
    step s = .next (s.setStatus (.faulted f)) := by
  simp only [step, runStep, hs, cycle, hf, raiseFailure_eq]

theorem step_of_decode_error {r : DecodeReject} (hs : s.status = .running) (hf : fetchWord s = .ok op)
    (hd : decode op = .error r) : step s = .next ((advance s).setStatus (.faulted (.unimplementedOpcode op))) := by
  rw [step_of_fetch hs hf]
  simp only [dispatchWord, hd, raiseFailure_eq]

/-- R24: a step is taken only by a running machine. -/
theorem step_of_stopped (hs : s.status ≠ .running) : ∃ r : Fault, step s = .fault r := by
  cases hst : s.status with
  | running => exact absurd hst hs
  | halted => exact ⟨.alreadyHalted, by simp only [step, runStep, hst]⟩
  | faulted f => exact ⟨.alreadyFaulted f, by simp only [step, runStep, hst]⟩

/-- R24, R46: a running machine steps, whatever it fetches. -/
theorem step_of_running (hs : s.status = .running) : ∃ t : State, step s = .next t := by
  cases hf : fetchWord s with
  | error f => exact ⟨_, step_of_fetch_error hs hf⟩
  | ok op =>
    cases hd : decode op with
    | error r => exact ⟨_, step_of_decode_error hs hf hd⟩
    | ok i =>
      obtain ⟨t, ht⟩ := exec_total i (advance s)
      exact ⟨t, (step_of_decode hs hf hd).trans ht⟩

/-- R33: no step writes memory. -/
theorem step_keeps_mem (h : step s = .next t) : t.mem = s.mem := by
  rcases step_cases h with ⟨-, ⟨f, -, rfl⟩ | ⟨op, -, -, rfl⟩ | ⟨op, i, -, -, hexec⟩⟩
  · rfl
  · rfl
  · exact (exec_keeps_mem hexec).trans (advance_mem s)

end

/-- Settles O10: the bytes make the word that is fetched. -/
theorem stepRunsTheDecodedInstruction : Obligations.StepRunsTheDecodedInstruction := by
  unfold Obligations.StepRunsTheDecodedInstruction
  intro s hi lo i hs hhi hlo hd
  exact step_of_decode hs (fetchWord_of_reads hhi hlo) hd

/-- Settles O12: the fetch fails at the first address it reads above 4095. -/
theorem fetchOutsideMemoryFaults : Obligations.FetchOutsideMemoryFaults := by
  unfold Obligations.FetchOutsideMemoryFaults
  intro s hs
  constructor
  · intro hpc
    exact step_of_fetch_error hs (fetchWord_error_iff.mpr (.inl ⟨hpc, rfl⟩))
  · intro hpc
    exact step_of_fetch_error hs (fetchWord_error_iff.mpr (.inr ⟨hpc, rfl⟩))

/-- Settles O13: the decoder rejects the words no row selects. -/
theorem unimplementedWordFaults : Obligations.UnimplementedWordFaults := by
  unfold Obligations.UnimplementedWordFaults
  intro s op hs hf hword
  exact step_of_decode_error hs hf (wellFormedWord_eq_false_iff.mp hword)

/-- Settles O47: every fetch, decoded or not, gives a next state. -/
theorem runningMachineAlwaysSteps : Obligations.RunningMachineAlwaysSteps := by
  unfold Obligations.RunningMachineAlwaysSteps
  exact fun _ => step_of_running

/-- Settles O48: the step looks at the status first. -/
theorem stoppedMachineTakesNoStep : Obligations.StoppedMachineTakesNoStep := by
  unfold Obligations.StoppedMachineTakesNoStep
  intro s
  constructor
  · intro hs
    simp only [step, runStep, hs]
  · intro f hs
    simp only [step, runStep, hs]

/-- R61: a step that skips on a condition `p` moves `pc` past one or two words, without wrapping, and changes nothing else. -/
theorem step_of_skip {s : State} {op : Word} {c taken : Bool} {p : Prop} (hf : fetchWord s = .ok op) (hc : c = true ↔ p)
    (htaken : taken = true ↔ p) (hstep : step s = skipIf c (advance s)) :
    ∃ t : State, step s = .next t ∧ t.pc.toNat = s.pc.toNat + (if taken then 4 else 2) ∧ s.onlyPc t := by
  obtain rfl : c = taken := Bool.eq_iff_iff.mpr (hc.trans htaken.symm)
  obtain ⟨-, hpc2, hpc4⟩ := fetched_pc hf
  rw [hstep, skipIf_eq]
  cases c with
  | false => exact ⟨_, rfl, hpc2, onlyPc_advance s⟩
  | true => exact ⟨_, rfl, hpc4, onlyPc_setPc s _⟩

/-- Settles O26: each skip's condition on the advanced state is its condition on the state before the fetch. -/
theorem skipStepAdvancesTwoOrFour : Obligations.SkipStepAdvancesTwoOrFour := by
  unfold Obligations.SkipStepAdvancesTwoOrFour
  intro s op i taken hs hf hd hskip
  have hstep := step_of_decode hs hf hd
  rcases hskip with ⟨x, kk, rfl, htaken⟩ | ⟨x, kk, rfl, htaken⟩ | ⟨x, y, rfl, htaken⟩
  · exact step_of_skip hf beq_iff_eq htaken hstep
  · exact step_of_skip hf bne_iff_ne htaken hstep
  · exact step_of_skip hf beq_iff_eq htaken hstep

/-- Settles O42: with the same two bytes the fetch gives the same word, and no instruction reads memory. -/
theorem stepReadsOnlyTheTwoFetchedBytes : Obligations.StepReadsOnlyTheTwoFetchedBytes := by
  unfold Obligations.StepReadsOnlyTheTwoFetchedBytes
  intro s m hfst hsnd
  have hfetch : fetchWord (s.setMem m) = fetchWord s := by
    rw [fetchWord, fetchWord, setMem_mem, setMem_pc, hfst, hsnd]
  constructor
  · intro t h
    obtain ⟨hs, hcases⟩ := step_cases h
    rcases hcases with ⟨f, hf, rfl⟩ | ⟨op, hf, hd, rfl⟩ | ⟨op, i, hf, hd, hexec⟩ <;> rw [← hfetch] at hf
    · exact step_of_fetch_error (s := s.setMem m) hs hf
    · exact step_of_decode_error (s := s.setMem m) hs hf hd
    · exact (step_of_decode (s := s.setMem m) hs hf hd).trans (exec_setMem m hexec)
  · intro r h
    have hs : s.status ≠ .running := by
      intro hrun
      obtain ⟨t, ht⟩ := step_of_running hrun
      rw [ht] at h
      cases h
    rw [← h, step, step, runStep, runStep, setMem_status]
    split
    · exact absurd ‹_› hs
    · rfl
    · rfl

/-- Settles O43: `pc` by the effect of the instruction on the state whose `pc` is A + 2. -/
theorem programCounterAfterAStep : Obligations.ProgramCounterAfterAStep := by
  unfold Obligations.ProgramCounterAfterAStep
  intro s t op i hf hd h
  have hexec : exec i (advance s) = .next t := (step_of_decode (step_cases h).1 hf hd).symm.trans h
  obtain ⟨-, hadvance, -⟩ := fetched_pc hf
  refine ⟨?jump, ?call, ?ret, ?next⟩
  case jump =>
    rintro nnn rfl
    cases hexec
    exact zext16_toNat nnn
  case call =>
    rintro nnn rfl hroom
    obtain ⟨j, hsp⟩ := sp_eq_castSucc_of_lt hroom
    rw [exec_call_of_room (s := advance s) nnn hsp] at hexec
    cases hexec
    exact zext16_toNat nnn
  case ret =>
    rintro j rfl hj
    rw [exec_ret_of_entry (s := advance s) (Fin.ext hj.symm)] at hexec
    cases hexec
    rfl
  case next =>
    rintro (rfl | rfl | hw)
    · cases hexec; exact hadvance
    · cases hexec; exact hadvance
    · obtain ⟨-, hpc, -⟩ := exec_onlyRegs hw hexec
      rw [hpc]
      exact hadvance

section
variable {s t : State} {f : Failure}

/-- R74: an instruction fails exactly when it is a RETURN with no entry or a CALL with no room. -/
theorem exec_faulted_iff {i : Instr} (hs : s.status = .running) (h : exec i s = .next t) : t.status = .faulted f ↔
    ((∃ nnn, i = .call nnn) ∧ s.sp.val = 16 ∧ f = .stackOverflow) ∨ (i = .ret ∧ s.sp.val = 0 ∧ f = .stackUnderflow) := by
  rcases exec_status_cases h with
    ⟨rfl, rfl⟩ | ⟨rfl, hsp, rfl⟩ | ⟨⟨nnn, rfl⟩, hsp, rfl⟩ | ⟨hst, -, hret, hcall⟩
  · simp
  · simp [hsp, eq_comm]
  · simp [hsp, eq_comm]
  · rw [hst, hs]
    refine iff_of_false (by simp) ?_
    rintro (⟨hi, hsp, -⟩ | ⟨hi, hsp, -⟩)
    · exact hcall hi hsp
    · exact hret hi hsp

/-- R52: an instruction halts a running machine exactly when it is HALT. -/
theorem exec_halted_iff {i : Instr} (hs : s.status = .running) (h : exec i s = .next t) : t.status = .halted ↔ i = .halt := by
  rcases exec_status_cases h with ⟨rfl, rfl⟩ | ⟨rfl, -, rfl⟩ | ⟨⟨nnn, rfl⟩, -, rfl⟩ | ⟨hst, hi, -, -⟩
  · simp
  · simp
  · simp
  · simp [hst, hs, hi]

/-- R24: a step halts the machine exactly when it decodes HALT. -/
theorem step_halted_iff (h : step s = .next t) :
    t.status = .halted ↔ ∃ op : Word, fetchWord s = .ok op ∧ decode op = .ok .halt := by
  rcases step_cases h with ⟨hs, ⟨f, hf, rfl⟩ | ⟨op, hf, hd, rfl⟩ | ⟨op, i, hf, hd, hexec⟩⟩
  · simp [hf]
  · simp [hf, hd]
  · rw [exec_halted_iff (s := advance s) hs hexec]
    simp [hf, hd]

/-- R72, R74, R75: a step fails exactly when the fetch, the decode or the instruction fails. -/
theorem step_faulted_iff (h : step s = .next t) : t.status = .faulted f ↔
    fetchWord s = .error f ∨ ∃ op : Word, fetchWord s = .ok op ∧
      ((decode op = .error (.unimplemented op) ∧ f = .unimplementedOpcode op) ∨
       ((∃ nnn, decode op = .ok (.call nnn)) ∧ s.sp.val = 16 ∧ f = .stackOverflow) ∨
       (decode op = .ok .ret ∧ s.sp.val = 0 ∧ f = .stackUnderflow)) := by
  rcases step_cases h with ⟨hs, ⟨f', hf, rfl⟩ | ⟨op, hf, hd, rfl⟩ | ⟨op, i, hf, hd, hexec⟩⟩
  · simp [hf]
  · simp [hf, hd, eq_comm]
  · rw [exec_faulted_iff (s := advance s) hs hexec]
    simp [hf, hd]

end

/-- Settles O45: the fetch fails by the value of `pc`, the decode by the opcode map, and the instruction by `sp`. -/
theorem failureCausesAreExact : Obligations.FailureCausesAreExact := by
  unfold Obligations.FailureCausesAreExact
  intro s t h f
  have hret : ∀ op, decode op = .ok .ret ↔ op = 0x00EE#16 := fun op => decode_eq_ok_iff.trans eq_comm
  simp only [step_faulted_iff h, fetchWord_error_iff, decode_call_iff, hret, wellFormedWord_eq_false_iff, or_assoc]

/-- Settles O44: 0x0000 is the one word that decodes to HALT. -/
theorem haltedExactlyByTheHaltWord : Obligations.HaltedExactlyByTheHaltWord := by
  unfold Obligations.HaltedExactlyByTheHaltWord
  intro s t h
  have hhalt : ∀ op, decode op = .ok .halt ↔ op = 0x0000#16 := fun op => decode_eq_ok_iff.trans eq_comm
  simp only [step_halted_iff h, hhalt, exists_eq_right]

/-- R73: a failing step writes the status only, before the fetch advance when the fetch fails and after it otherwise. -/
theorem step_faulted_cases {s t : State} {f : Failure} (h : step s = .next t) (hfault : t.status = .faulted f) :
    (t = s.setStatus (.faulted f) ∧ ∃ a, f = .outOfBounds a) ∨
    (t = (advance s).setStatus (.faulted f) ∧ (∀ a, f ≠ .outOfBounds a) ∧ ∃ op, fetchWord s = .ok op) := by
  rcases step_cases h with ⟨hs, ⟨f', hf, rfl⟩ | ⟨op, hf, -, rfl⟩ | ⟨op, i, hf, -, hexec⟩⟩
  · cases hfault
    rcases fetchWord_error_iff.mp hf with ⟨-, rfl⟩ | ⟨-, rfl⟩ <;> exact .inl ⟨rfl, _, rfl⟩
  · cases hfault
    exact .inr ⟨rfl, by simp, op, hf⟩
  · rcases (exec_faulted_iff (s := advance s) hs hexec).mp hfault with ⟨⟨nnn, rfl⟩, hsp, rfl⟩ | ⟨rfl, hsp, rfl⟩
    · rw [exec_call_of_full nnn (Fin.ext hsp)] at hexec
      cases hexec
      exact .inr ⟨rfl, by simp, op, hf⟩
    · rw [exec_ret_of_empty (Fin.ext hsp)] at hexec
      cases hexec
      exact .inr ⟨rfl, by simp, op, hf⟩

/-- Settles O46: a failing step writes the status only, and `pc` is the advanced one exactly when the fetch gave a word. -/
theorem failingStepKeepsEverythingElse : Obligations.FailingStepKeepsEverythingElse := by
  unfold Obligations.FailingStepKeepsEverythingElse
  intro s t f h hfault
  rcases step_faulted_cases h hfault with ⟨rfl, hbounds⟩ | ⟨rfl, hother, op, hf⟩
  · refine ⟨fun _ _ => rfl, fun _ => rfl, rfl, fun _ => rfl, fun _ => rfl, fun hother => ?_⟩
    obtain ⟨a, rfl⟩ := hbounds
    exact absurd rfl (hother a)
  · refine ⟨fun _ _ => rfl, fun _ => rfl, rfl, fun _ => rfl, fun hbounds => ?_, fun _ => (fetched_pc hf).2.1⟩
    obtain ⟨a, rfl⟩ := hbounds
    exact absurd rfl (hother a)

end Sys2Proof.Machine
end

section
/-! PROOFS of bounded runs (spec/60_exceptions.md R82): a run by the status of its state and its first step, and what follows of every
run by induction on the fuel. -/

namespace Sys2Proof.Machine

theorem run_succ_of_next {s u : State} (h : step s = .next u) (n : Nat) : run (n + 1) s = run n u := by
  simp only [run, h]

/-- R24: a stopped machine has ended, whatever the fuel. -/
theorem run_of_stopped {s : State} (hs : s.status ≠ .running) : ∀ n : Nat, run n s = .ended s
  | 0 => if_neg hs
  | n + 1 => by
    obtain ⟨r, hr⟩ := step_of_stopped hs
    simp only [run, hr]

theorem run_zero_of_running {s : State} (hs : s.status = .running) : run 0 s = .notEnded s := if_pos hs

/-- How a bounded run goes: a stopped machine has ended; a running one is out of fuel, or steps and runs on. -/
inductive RunTrace : Nat → State → Prop
  | stopped (n : Nat) (s : State) : s.status ≠ .running → RunTrace n s
  | outOfFuel (s : State) : s.status = .running → RunTrace 0 s
  | stepped (n : Nat) (s u : State) : step s = .next u → RunTrace n u → RunTrace (n + 1) s

/-- Every bounded run goes so, as a running machine always steps. -/
theorem runTrace (n : Nat) (s : State) : RunTrace n s := by
  induction n generalizing s with
  | zero => exact (em (s.status = .running)).elim (.outOfFuel s) (.stopped 0 s)
  | succ n ih =>
    by_cases hs : s.status = .running
    · obtain ⟨u, hu⟩ := step_of_running hs
      exact .stepped n s u hu (ih u)
    · exact .stopped _ s hs

section
variable {n : Nat} {s t : State}

/-- R33, R40: a bounded run never writes memory. -/
theorem run_keeps_mem (h : run n s = .ended t ∨ run n s = .notEnded t) : t.mem = s.mem := by
  induction runTrace n s with
  | stopped n s hs =>
    obtain rfl : s = t := by simpa [run_of_stopped hs] using h
    rfl
  | outOfFuel s hs =>
    obtain rfl : s = t := by simpa [run_zero_of_running hs] using h
    rfl
  | stepped n s u hu _ ih =>
    rw [run_succ_of_next hu] at h
    exact (ih h).trans (step_keeps_mem hu)

/-- A run that reports "not ended" stands at a running machine. -/
theorem running_of_run_notEnded (h : run n s = .notEnded t) : t.status = .running := by
  induction runTrace n s with
  | stopped n s hs => rw [run_of_stopped hs] at h; cases h
  | outOfFuel s hs => rw [run_zero_of_running hs] at h; cases h; exact hs
  | stepped n s u hu _ ih => exact ih ((run_succ_of_next hu n).symm.trans h)

/-- A run that reports "ended" stands at a stopped machine, and reports it again with more fuel. -/
theorem stopped_of_run_ended (h : run n s = .ended t) : t.status ≠ .running ∧ ∀ k : Nat, run (n + k) s = .ended t := by
  induction runTrace n s with
  | stopped n s hs => rw [run_of_stopped hs] at h; cases h; exact ⟨hs, fun k => run_of_stopped hs _⟩
  | outOfFuel s hs => rw [run_zero_of_running hs] at h; cases h
  | stepped n s u hu _ ih =>
    obtain ⟨ht, hmore⟩ := ih ((run_succ_of_next hu n).symm.trans h)
    refine ⟨ht, fun k => ?_⟩
    rw [Nat.succ_add, run_succ_of_next hu]
    exact hmore k

/-- R82: a machine whose step gives its own state again never ends. -/
theorem run_of_step_self (hs : s.status = .running) (h : step s = .next s) : ∀ n : Nat, run n s = .notEnded s
  | 0 => run_zero_of_running hs
  | n + 1 => (run_succ_of_next h n).trans (run_of_step_self hs h n)

end

/-- Settles O41: by induction on the fuel, each step keeping memory. -/
theorem memoryIsConstantDuringARun : Obligations.MemoryIsConstantDuringARun := by
  unfold Obligations.MemoryIsConstantDuringARun
  exact ⟨fun _ _ => step_keeps_mem, fun _ _ _ => run_keeps_mem⟩

/-- Settles O55: by induction on the fuel, a running machine always stepping and a stopped one never. -/
theorem runReportsHowItEnded : Obligations.RunReportsHowItEnded := by
  unfold Obligations.RunReportsHowItEnded
  exact fun _ _ _ => ⟨running_of_run_notEnded, stopped_of_run_ended⟩

/-- Settles O56: the address, zero-extended, is the `pc` before the fetch, so the step gives the same state. -/
theorem jumpToItselfNeverEnds : Obligations.JumpToItselfNeverEnds := by
  unfold Obligations.JumpToItselfNeverEnds
  intro s op nnn hs hf hd hpc
  have htarget : zext16 nnn = s.pc := BitVec.eq_of_toNat_eq ((zext16_toNat nnn).trans hpc.symm)
  refine run_of_step_self hs ?_
  calc step s = exec (.jump nnn) (advance s) := step_of_decode hs hf hd
    _ = .next ((advance s).setPc (zext16 nnn)) := exec_jump nnn _
    _ = .next ((advance s).setPc s.pc) := by rw [htarget]
    _ = .next s := rfl

end Sys2Proof.Machine
end

section
/-! PROOFS of the form of memory (spec/20_memory.md R30, R33): canonical memories are told apart by their reads, and a word placed at
`pc` is fetched. -/

namespace Sys2Proof.Machine

/-- The canonical form, cell by cell. -/
theorem wfFrom_cons {lo k : Nat} {b : Byte} {m : Memory} : Memory.wfFrom lo ((k, b) :: m) = true ↔
    lo ≤ k ∧ k < Config.memSize ∧ b ≠ Memory.unlisted ∧ Memory.wfFrom (k + 1) m = true := by
  simp only [Memory.wfFrom, Bool.and_eq_true, decide_eq_true_eq, and_assoc]

section
variable {k : Nat} {b : Byte} {m : Memory}

theorem byteAt_cons_same : Memory.byteAt ((k, b) :: m) k = b := if_pos rfl

theorem byteAt_cons_of_ne {a : Nat} (h : k ≠ a) : Memory.byteAt ((k, b) :: m) a = Memory.byteAt m a := if_neg h

/-- An address that reads as listed is at or above the first cell. -/
theorem le_of_byteAt_ne {lo a : Nat} (h : Memory.wfFrom lo ((k, b) :: m) = true)
    (ha : Memory.byteAt ((k, b) :: m) a ≠ Memory.unlisted) : k ≤ a := by
  obtain ⟨-, hk, hb, hrest⟩ := wfFrom_cons.mp h
  have hfrom : Memory.wfFrom k ((k, b) :: m) = true := wfFrom_cons.mpr ⟨le_rfl, hk, hb, hrest⟩
  exact not_lt.mp (mt (byteAt_below hfrom) ha)

/-- A canonical list that reads as unlisted everywhere has no cell. -/
theorem eq_nil_of_byteAt {lo : Nat} (h : Memory.wfFrom lo m = true)
    (hread : ∀ a < Config.memSize, Memory.byteAt m a = Memory.unlisted) : m = [] := by
  cases m with
  | nil => rfl
  | cons c rest =>
    obtain ⟨-, hk, hb, -⟩ := wfFrom_cons.mp h
    exact absurd (byteAt_cons_same.symm.trans (hread c.1 hk)) hb

end

/-- Canonical lists that read alike have the same cells: the first cell is the first address that reads as listed. -/
theorem eq_of_byteAt_eq {lo lo' : Nat} {m m' : Memory} (h : Memory.wfFrom lo m = true) (h' : Memory.wfFrom lo' m' = true)
    (hread : ∀ a < Config.memSize, Memory.byteAt m a = Memory.byteAt m' a) : m = m' := by
  induction m generalizing lo lo' m' with
  | nil => exact (eq_nil_of_byteAt h' fun a ha => (hread a ha).symm).symm
  | cons c rest ih =>
    obtain ⟨k, b⟩ := c
    cases m' with
    | nil => exact eq_nil_of_byteAt h hread
    | cons c' rest' =>
      obtain ⟨k', b'⟩ := c'
      obtain ⟨-, hk, hb, hrest⟩ := wfFrom_cons.mp h
      obtain ⟨-, hk', hb', hrest'⟩ := wfFrom_cons.mp h'
      have hle : k' ≤ k := le_of_byteAt_ne h' (by rwa [← hread k hk, byteAt_cons_same])
      have hge : k ≤ k' := le_of_byteAt_ne h (by rwa [hread k' hk', byteAt_cons_same])
      obtain rfl : k = k' := le_antisymm hge hle
      obtain rfl : b = b' := by simpa only [byteAt_cons_same] using hread k hk
      have htails : ∀ a < Config.memSize, Memory.byteAt rest a = Memory.byteAt rest' a := by
        intro a ha
        by_cases hka : k = a
        · subst hka
          rw [byteAt_below hrest (Nat.lt_succ_self k), byteAt_below hrest' (Nat.lt_succ_self k)]
        · simpa only [byteAt_cons_of_ne hka] using hread a ha
      rw [ih hrest hrest' htails]

/-- Settles O49: putting a byte inside memory changes what its address reads as, and no address above 4095 exists. -/
theorem writtenByteIsReadBack : Obligations.WrittenByteIsReadBack := by
  unfold Obligations.WrittenByteIsReadBack
  intro m a b hwf
  constructor
  · intro ha
    have hin : a < Config.memSize := Nat.lt_succ_of_le ha
    exact ⟨Memory.setByte m a b, if_pos hin, memRead_setByte b hwf hin⟩
  · intro ha
    have hout : ¬ a < Config.memSize := Nat.not_lt.mpr ha
    exact ⟨if_neg hout, if_neg hout⟩

/-- Settles O50: reading alike inside memory is having the same cells. -/
theorem equalReadsMeanEqualMemories : Obligations.EqualReadsMeanEqualMemories := by
  unfold Obligations.EqualReadsMeanEqualMemories
  intro m m' hwf hwf' hread
  refine eq_of_byteAt_eq hwf hwf' fun a ha => ?_
  have hboth := hread a
  rw [memRead, memRead, if_pos ha, if_pos ha] at hboth
  exact Except.ok.inj hboth

/-- A word placed at an address that has a next one is fetched when `pc` is there. -/
theorem fetchWord_of_placeWord {s : State} {m : Memory} (op : Word) (hm : Memory.wf m = true)
    (hpc : s.pc.toNat + 1 < Config.memSize) (hmem : s.mem = Memory.placeWord m s.pc.toNat op) : fetchWord s = .ok op := by
  have hread := memRead_placeWord op hm hpc
  rw [← hmem] at hread
  have hhi : memRead s.mem s.pc.toNat = .ok (highByte op) := by simp [hread]
  have hlo : memRead s.mem (s.pc.toNat + 1) = .ok (lowByte op) := by simp [hread]
  rw [fetchWord_of_reads hhi hlo, wordOfBytes_bytes]

/-- Settles O51: the word is placed at `pc`, or at the reset vector with `pc` moved there. -/
theorem placedWordIsFetchedNext : Obligations.PlacedWordIsFetchedNext := by
  unfold Obligations.PlacedWordIsFetchedNext
  intro s op hwf
  have hop : BitVec.ofNat 16 (op.toNat % 2 ^ 16) = op := by rw [Nat.mod_eq_of_lt op.isLt, BitVec.ofNat_toNat, BitVec.setWidth_eq]
  rw [State.withFetchWord, hop]
  refine ⟨?_, rfl⟩
  have hplace : (placeNextWord s op).pc.toNat + 1 < Config.memSize := by
    unfold placeNextWord
    rw [setStatus_pc, setPc_pc]
    split_ifs with hpc
    · exact hpc
    · decide
  exact fetchWord_of_placeWord op hwf hplace rfl

end Sys2Proof.Machine
end

section
/-! PROOFS of the host's side (spec/10_state.md R17, R27 to R29; spec/70_reset_and_hazards.md R83 to R85): reset, launches, and the
completion report. -/

namespace Sys2Proof.Machine

/-! ## Reset -/

/-- Settles O1: reset memory has no cell, and the registers and entries are copies of zero. -/
theorem resetStateIsAllZero : Obligations.ResetStateIsAllZero := by
  unfold Obligations.ResetStateIsAllZero
  refine ⟨?mem, ?regs, rfl, ?entries, rfl, rfl⟩
  case mem => exact fun a ha => memRead_ok_iff.mpr ⟨Nat.lt_succ_of_le ha, rfl⟩
  case regs => exact fun i => Vector.getElem_replicate i.isLt
  case entries => exact fun j => Vector.getElem_replicate j.isLt

/-- Settles O2: reset memory is canonical, `pc` is 0, and no entry is live. -/
theorem resetStateMeetsInvariant : Obligations.ResetStateMeetsInvariant := by
  unfold Obligations.ResetStateMeetsInvariant
  exact ⟨reset_mem_wf, Nat.zero_le _, fun j hj => absurd hj (Nat.not_lt_zero _)⟩

/-! ## Launches -/

section
variable {l : Launch}

theorem launch_of_le (h : l.sp ≤ 16) : launch l =
    .next { mem := loadBytes [] l.mem, v := l.v, pc := l.pc, stack := l.stack, sp := ⟨l.sp, by omega⟩, status := .running } :=
  dif_pos h

theorem launch_of_gt (h : 16 < l.sp) : launch l = .refused (.stackPointerOutOfRange l.sp) := dif_neg (Nat.not_le.mpr h)

end

/-- Settles O52: a launch looks at `sp` only. -/
theorem launchRefusedExactlyAboveSixteen : Obligations.LaunchRefusedExactlyAboveSixteen := by
  unfold Obligations.LaunchRefusedExactlyAboveSixteen
  exact fun _ => ⟨launch_of_gt, fun h => ⟨_, launch_of_le h⟩⟩

theorem loadBytes_append (m : Memory) (ls rest : List (Fin 4096 × Byte)) :
    loadBytes m (ls ++ rest) = loadBytes (loadBytes m ls) rest := by
  induction ls generalizing m with
  | nil => rfl
  | cons p ls ih => exact ih _

/-- Loads at other addresses leave a byte as it is. -/
theorem memRead_loadBytes_of_notMem {m : Memory} {ls : List (Fin 4096 × Byte)} (hm : Memory.wf m = true) (a : Fin 4096)
    (ha : ∀ p ∈ ls, p.1 ≠ a) : memRead (loadBytes m ls) a.val = memRead m a.val := by
  induction ls generalizing m with
  | nil => rfl
  | cons p ls ih =>
    obtain ⟨hp, hls⟩ := List.forall_mem_cons.mp ha
    have hne : a.val ≠ p.1.val := fun h => hp (Fin.ext h.symm)
    rw [loadBytes, ih (setByte_keeps_wf _ hm p.1.isLt) hls, memRead_setByte _ hm p.1.isLt, if_neg hne]

/-- The last load at an address is what it reads as. -/
theorem memRead_loadBytes_of_last {m : Memory} (before after : List (Fin 4096 × Byte)) {a : Fin 4096} (b : Byte)
    (hm : Memory.wf m = true) (ha : ∀ p ∈ after, p.1 ≠ a) :
    memRead (loadBytes m (before ++ (a, b) :: after)) a.val = .ok b := by
  have hbefore : Memory.wf (loadBytes m before) = true := loadBytes_keeps_wf before hm
  rw [loadBytes_append, loadBytes, memRead_loadBytes_of_notMem (setByte_keeps_wf b hbefore a.isLt) a ha,
    memRead_setByte b hbefore a.isLt, if_pos rfl]

/-- Settles O53: the loads are made in order over zeroed memory, and the other values are taken as they are. -/
theorem launchLoadsTheGivenValues : Obligations.LaunchLoadsTheGivenValues := by
  unfold Obligations.LaunchLoadsTheGivenValues
  intro l hsp
  refine ⟨_, launch_of_le hsp, rfl, rfl, rfl, rfl, rfl, ?unloaded, ?loaded⟩
  case unloaded =>
    intro a ha
    exact (memRead_loadBytes_of_notMem rfl a ha).trans (if_pos a.isLt)
  case loaded =>
    intro before after a b hl ha
    simp only [hl]
    exact memRead_loadBytes_of_last before after b rfl ha

/-- A byte put above every cell becomes the last cell. -/
theorem setByte_above {m : Memory} {k : Nat} {b : Byte} (hm : ∀ c ∈ m, c.1 < k) (hb : b ≠ Memory.unlisted) :
    Memory.setByte m k b = m ++ [(k, b)] := by
  induction m with
  | nil => exact if_neg hb
  | cons c rest ih =>
    obtain ⟨hc, hrest⟩ := List.forall_mem_cons.mp hm
    rw [Memory.setByte, if_neg hc.not_gt, if_neg hc.ne', ih hrest, List.cons_append]

/-- Loading the cells of a canonical list, in their order, puts them after the lower ones. -/
theorem loadBytes_loadsOf {lo : Nat} {m acc : Memory} (hm : Memory.wfFrom lo m = true) (hacc : ∀ c ∈ acc, c.1 < lo) :
    loadBytes acc (loadsOf m) = acc ++ m := by
  induction m generalizing lo acc with
  | nil => exact (List.append_nil acc).symm
  | cons c rest ih =>
    obtain ⟨k, b⟩ := c
    obtain ⟨hlo, hk, hb, hrest⟩ := wfFrom_cons.mp hm
    have hbelow : ∀ c ∈ acc, c.1 < k := fun c hc => (hacc c hc).trans_le hlo
    have hnext : ∀ c ∈ acc ++ [(k, b)], c.1 < k + 1 := by
      intro c hc
      rcases List.mem_append.mp hc with hc | hc
      · exact (hbelow c hc).trans (Nat.lt_succ_self k)
      · rw [List.mem_singleton.mp hc]; exact Nat.lt_succ_self k
    rw [loadsOf, dif_pos (memSize_eq ▸ hk), loadBytes, setByte_above hbelow hb, ih hrest hnext, List.append_assoc,
      List.singleton_append]

/-- Settles O54: the cells of canonical memory, loaded in order, are that memory again. -/
theorem relaunchKeepsTheState : Obligations.RelaunchKeepsTheState := by
  unfold Obligations.RelaunchKeepsTheState
  intro s hwf
  have hsp : (Launch.ofState s).sp ≤ 16 := Nat.le_of_lt_succ s.sp.isLt
  have hmem : loadBytes [] (Launch.ofState s).mem = s.mem := loadBytes_loadsOf hwf (fun _ hc => absurd hc List.not_mem_nil)
  rw [launch_of_le hsp, hmem]
  rfl

/-! ## Completion -/

section
variable {s : State}

theorem completion_of_faulted {f : Failure} (h : s.status = .faulted f) : s.completion = some (.faulted f.code f.info) := by
  simp only [State.completion, h]

theorem completion_of_halted (h : s.status = .halted) : s.completion = some .halted := by
  simp only [State.completion, h]

/-- R29: a stopped machine reports its end and can be inspected. -/
theorem reports_of_stopped (h : s.status ≠ .running) : s.completion ≠ none ∧ ∀ it : Item, s.inspect it = some (s.item it) := by
  cases hs : s.status with
  | running => exact absurd hs h
  | halted => simp [State.completion, State.inspect, hs]
  | faulted f => simp [State.completion, State.inspect, hs]

end

/-- Settles O57: the report and the inspection look at the status, and a failure's record gives the code and the info. -/
theorem completionReportsCodeAndInfo : Obligations.CompletionReportsCodeAndInfo := by
  unfold Obligations.CompletionReportsCodeAndInfo
  intro s
  refine ⟨?running, reports_of_stopped, completion_of_halted, fun _ => completion_of_faulted, completion_of_faulted,
    completion_of_faulted, fun _ => completion_of_faulted⟩
  case running =>
    intro hs
    simp [State.completion, State.inspect, hs]

end Sys2Proof.Machine
end
